-- ==== Sys2Proof/Word.lean ====
section
/-! DEFINITION. The word types of the machine: what the spec holds as bits of a fixed width (R8, R9, R20, R70, R71). -/

namespace Sys2Proof

/-- A memory or general register byte (R20, R50). -/
abbrev Byte := BitVec 8

/-- A 16-bit value: an instruction word, I, PC, a stack entry (R22, R24, R26, R70). -/
abbrev Word := BitVec 16

/-- A 4-bit field: a register index or a count (R70, R71). -/
abbrev Nibble := BitVec 4

/-- The 12-bit address field `nnn` (R70, R71). -/
abbrev Addr := BitVec 12

/-- A set of the 16 keys, bit `k` standing for key `k` (R36, R240). -/
abbrev KeySet := BitVec 16

/-- The index of VF, the register with the flag role (R21). -/
abbrev vf : Nibble := 0xF#4

end Sys2Proof
end

