-- ==== Sys2Proof/Syntax.lean ====
section
/-! DEFINITION. The 35 instructions of the opcode table (R72, R74), one constructor per row. -/

namespace Sys2Proof

/-- An instruction with its decoded fields (R70, R71): `x`, `y` register indices, `kk` a byte, `nnn` an address, `n` a
count. `SHR` and `SHL` keep the `y` they decode and do not use (R72, R76). -/
inductive Instr where
  /-- `00E0` (R180). -/
  | cls
  /-- `00EE` (R110). -/
  | ret
  /-- `0nnn` (R111). -/
  | sys (nnn : Addr)
  /-- `1nnn` (R112). -/
  | jp (nnn : Addr)
  /-- `2nnn` (R113). -/
  | call (nnn : Addr)
  /-- `3xkk` (R114). -/
  | seVxKk (x : Nibble) (kk : Byte)
  /-- `4xkk` (R115). -/
  | sneVxKk (x : Nibble) (kk : Byte)
  /-- `5xy0` (R116). -/
  | seVxVy (x y : Nibble)
  /-- `6xkk` (R130). -/
  | ldVxKk (x : Nibble) (kk : Byte)
  /-- `7xkk` (R131). -/
  | addVxKk (x : Nibble) (kk : Byte)
  /-- `8xy0` (R132). -/
  | ldVxVy (x y : Nibble)
  /-- `8xy1` (R133). -/
  | or (x y : Nibble)
  /-- `8xy2` (R134). -/
  | and (x y : Nibble)
  /-- `8xy3` (R135). -/
  | xor (x y : Nibble)
  /-- `8xy4` (R139). -/
  | addVxVy (x y : Nibble)
  /-- `8xy5` (R140). -/
  | sub (x y : Nibble)
  /-- `8xy6` (R141); `y` is a don't-care field. -/
  | shr (x y : Nibble)
  /-- `8xy7` (R142). -/
  | subn (x y : Nibble)
  /-- `8xyE` (R143); `y` is a don't-care field. -/
  | shl (x y : Nibble)
  /-- `9xy0` (R117). -/
  | sneVxVy (x y : Nibble)
  /-- `Annn` (R160). -/
  | ldINnn (nnn : Addr)
  /-- `Bnnn` (R118). -/
  | jpV0 (nnn : Addr)
  /-- `Cxkk` (R144). -/
  | rnd (x : Nibble) (kk : Byte)
  /-- `Dxyn` (R182). -/
  | drw (x y n : Nibble)
  /-- `Ex9E` (R200). -/
  | skp (x : Nibble)
  /-- `ExA1` (R201). -/
  | sknp (x : Nibble)
  /-- `Fx07` (R202). -/
  | ldVxDt (x : Nibble)
  /-- `Fx0A` (R203). -/
  | ldVxK (x : Nibble)
  /-- `Fx15` (R204). -/
  | ldDtVx (x : Nibble)
  /-- `Fx18` (R205). -/
  | ldStVx (x : Nibble)
  /-- `Fx1E` (R161). -/
  | addIVx (x : Nibble)
  /-- `Fx29` (R162). -/
  | ldFVx (x : Nibble)
  /-- `Fx33` (R163). -/
  | ldBVx (x : Nibble)
  /-- `Fx55` (R164). -/
  | ldMiVx (x : Nibble)
  /-- `Fx65` (R165). -/
  | ldVxMi (x : Nibble)
deriving DecidableEq, Repr

/-- The identifier of an instruction's row in the opcode table (R74). -/
def Instr.mnemonic : Instr → String
  | .cls => "CLS"
  | .ret => "RET"
  | .sys _ => "SYS"
  | .jp _ => "JP"
  | .call _ => "CALL"
  | .seVxKk _ _ => "SE_VX_KK"
  | .sneVxKk _ _ => "SNE_VX_KK"
  | .seVxVy _ _ => "SE_VX_VY"
  | .ldVxKk _ _ => "LD_VX_KK"
  | .addVxKk _ _ => "ADD_VX_KK"
  | .ldVxVy _ _ => "LD_VX_VY"
  | .or _ _ => "OR"
  | .and _ _ => "AND"
  | .xor _ _ => "XOR"
  | .addVxVy _ _ => "ADD_VX_VY"
  | .sub _ _ => "SUB"
  | .shr _ _ => "SHR"
  | .subn _ _ => "SUBN"
  | .shl _ _ => "SHL"
  | .sneVxVy _ _ => "SNE_VX_VY"
  | .ldINnn _ => "LD_I_NNN"
  | .jpV0 _ => "JP_V0"
  | .rnd _ _ => "RND"
  | .drw _ _ _ => "DRW"
  | .skp _ => "SKP"
  | .sknp _ => "SKNP"
  | .ldVxDt _ => "LD_VX_DT"
  | .ldVxK _ => "LD_VX_K"
  | .ldDtVx _ => "LD_DT_VX"
  | .ldStVx _ => "LD_ST_VX"
  | .addIVx _ => "ADD_I_VX"
  | .ldFVx _ => "LD_F_VX"
  | .ldBVx _ => "LD_B_VX"
  | .ldMiVx _ => "LD_MI_VX"
  | .ldVxMi _ => "LD_VX_MI"

end Sys2Proof
end

