-- ==== Sys2Proof/Decode.lean ====
section
/-! DEFINITION. The encoding of the 35 instructions: field extractors (R70, R71), the total decoder (R72, R75), the byte
order of an instruction (R55, R70), the opcode table as match and mask (R74), and an encoder written from the same table. -/

namespace Sys2Proof

/-- `w[15:12]`, the opcode family (R71). -/
def highNibble (w : Word) : Nibble := w.extractLsb' 12 4

/-- `w[3:0]` (R71). -/
def lowNibble (w : Word) : Nibble := w.extractLsb' 0 4

/-- `w[11:8]` (R71). -/
def fieldX (w : Word) : Nibble := w.extractLsb' 8 4

/-- `w[7:4]` (R71). -/
def fieldY (w : Word) : Nibble := w.extractLsb' 4 4

/-- `w[7:0]` (R71). -/
def fieldKk (w : Word) : Byte := w.extractLsb' 0 8

/-- `w[11:0]` (R71). -/
def fieldNnn (w : Word) : Addr := w.extractLsb' 0 12

/-- Why bytes are no instruction. -/
inductive DecodeError where
  /-- The word matches no row of the opcode table (R72, R75). -/
  | invalidOpcode (w : Word)
  /-- Fewer than the two bytes an instruction takes (R70, R78). -/
  | truncated
deriving DecidableEq, Repr

/-- Family 0: two exact words, and `SYS` for every other (R72). -/
def decodeFamily0 (w : Word) : Instr :=
  if w = 0x00E0#16 then .cls
  else if w = 0x00EE#16 then .ret
  else .sys (fieldNnn w)

/-- Family 8: the sub-opcode is `n` (R72). -/
def decodeFamily8 (w : Word) : Except DecodeError Instr :=
  let x := fieldX w
  let y := fieldY w
  let n := lowNibble w
  if n = 0x0#4 then .ok (.ldVxVy x y)
  else if n = 0x1#4 then .ok (.or x y)
  else if n = 0x2#4 then .ok (.and x y)
  else if n = 0x3#4 then .ok (.xor x y)
  else if n = 0x4#4 then .ok (.addVxVy x y)
  else if n = 0x5#4 then .ok (.sub x y)
  else if n = 0x6#4 then .ok (.shr x y)
  else if n = 0x7#4 then .ok (.subn x y)
  else if n = 0xE#4 then .ok (.shl x y)
  else .error (.invalidOpcode w)

/-- Family E: the sub-opcode is `kk` (R72). -/
def decodeFamilyE (w : Word) : Except DecodeError Instr :=
  let x := fieldX w
  let kk := fieldKk w
  if kk = 0x9E#8 then .ok (.skp x)
  else if kk = 0xA1#8 then .ok (.sknp x)
  else .error (.invalidOpcode w)

/-- Family F: the sub-opcode is `kk` (R72). -/
def decodeFamilyF (w : Word) : Except DecodeError Instr :=
  let x := fieldX w
  let kk := fieldKk w
  if kk = 0x07#8 then .ok (.ldVxDt x)
  else if kk = 0x0A#8 then .ok (.ldVxK x)
  else if kk = 0x15#8 then .ok (.ldDtVx x)
  else if kk = 0x18#8 then .ok (.ldStVx x)
  else if kk = 0x1E#8 then .ok (.addIVx x)
  else if kk = 0x29#8 then .ok (.ldFVx x)
  else if kk = 0x33#8 then .ok (.ldBVx x)
  else if kk = 0x55#8 then .ok (.ldMiVx x)
  else if kk = 0x65#8 then .ok (.ldVxMi x)
  else .error (.invalidOpcode w)

/-- The decoder: every 16-bit word is one of the 35 instructions or `InvalidOpcode` (R72). -/
def decode (w : Word) : Except DecodeError Instr :=
  let f := highNibble w
  if f = 0x0#4 then .ok (decodeFamily0 w)
  else if f = 0x1#4 then .ok (.jp (fieldNnn w))
  else if f = 0x2#4 then .ok (.call (fieldNnn w))
  else if f = 0x3#4 then .ok (.seVxKk (fieldX w) (fieldKk w))
  else if f = 0x4#4 then .ok (.sneVxKk (fieldX w) (fieldKk w))
  else if f = 0x5#4 then
    if lowNibble w = 0x0#4 then .ok (.seVxVy (fieldX w) (fieldY w)) else .error (.invalidOpcode w)
  else if f = 0x6#4 then .ok (.ldVxKk (fieldX w) (fieldKk w))
  else if f = 0x7#4 then .ok (.addVxKk (fieldX w) (fieldKk w))
  else if f = 0x8#4 then decodeFamily8 w
  else if f = 0x9#4 then
    if lowNibble w = 0x0#4 then .ok (.sneVxVy (fieldX w) (fieldY w)) else .error (.invalidOpcode w)
  else if f = 0xA#4 then .ok (.ldINnn (fieldNnn w))
  else if f = 0xB#4 then .ok (.jpV0 (fieldNnn w))
  else if f = 0xC#4 then .ok (.rnd (fieldX w) (fieldKk w))
  else if f = 0xD#4 then .ok (.drw (fieldX w) (fieldY w) (lowNibble w))
  else if f = 0xE#4 then decodeFamilyE w
  else decodeFamilyF w

/-- A word from its bytes in memory order: high byte first (R55, R70). -/
def wordOfBytes (hi lo : Byte) : Word := hi ++ lo

/-- A word's bytes in memory order (R55, R70). -/
def bytesOfWord (w : Word) : List Byte := [w.extractLsb' 8 8, w.extractLsb' 0 8]

/-- Decode the instruction at the head of a byte string, with the bytes that follow it: an instruction is exactly two
bytes (R78). -/
def decodeBytes : List Byte → Except DecodeError (Instr × List Byte)
  | hi :: lo :: rest =>
    match decode (wordOfBytes hi lo) with
    | .ok i => .ok (i, rest)
    | .error e => .error e
  | [_] => .error .truncated
  | [] => .error .truncated

/-- The host's numbering (bit 0 is the least significant bit of the first word) laid out as the hardware stores it and
given to the decoder. Every instruction is one 16-bit word. -/
def decodeTableWord (_nbits w : Nat) : Option Instr :=
  match decodeBytes (bytesOfWord (BitVec.ofNat 16 w)) with
  | .ok (i, _) => some i
  | .error _ => none

/-- A word with an address field. -/
def encodeNnn (f : Nibble) (nnn : Addr) : Word := f ++ nnn

/-- A word with a register and a byte field. -/
def encodeXKk (f x : Nibble) (kk : Byte) : Word := (f ++ x : BitVec 8) ++ kk

/-- A word of four nibbles. -/
def encodeXYN (f x y n : Nibble) : Word := (f ++ x : BitVec 8) ++ (y ++ n : BitVec 8)

/-- The encoder, row by row from the patterns of R74. -/
def encode : Instr → Word
  | .cls => 0x00E0#16
  | .ret => 0x00EE#16
  | .sys nnn => encodeNnn 0x0#4 nnn
  | .jp nnn => encodeNnn 0x1#4 nnn
  | .call nnn => encodeNnn 0x2#4 nnn
  | .seVxKk x kk => encodeXKk 0x3#4 x kk
  | .sneVxKk x kk => encodeXKk 0x4#4 x kk
  | .seVxVy x y => encodeXYN 0x5#4 x y 0x0#4
  | .ldVxKk x kk => encodeXKk 0x6#4 x kk
  | .addVxKk x kk => encodeXKk 0x7#4 x kk
  | .ldVxVy x y => encodeXYN 0x8#4 x y 0x0#4
  | .or x y => encodeXYN 0x8#4 x y 0x1#4
  | .and x y => encodeXYN 0x8#4 x y 0x2#4
  | .xor x y => encodeXYN 0x8#4 x y 0x3#4
  | .addVxVy x y => encodeXYN 0x8#4 x y 0x4#4
  | .sub x y => encodeXYN 0x8#4 x y 0x5#4
  | .shr x y => encodeXYN 0x8#4 x y 0x6#4
  | .subn x y => encodeXYN 0x8#4 x y 0x7#4
  | .shl x y => encodeXYN 0x8#4 x y 0xE#4
  | .sneVxVy x y => encodeXYN 0x9#4 x y 0x0#4
  | .ldINnn nnn => encodeNnn 0xA#4 nnn
  | .jpV0 nnn => encodeNnn 0xB#4 nnn
  | .rnd x kk => encodeXKk 0xC#4 x kk
  | .drw x y n => encodeXYN 0xD#4 x y n
  | .skp x => encodeXKk 0xE#4 x 0x9E#8
  | .sknp x => encodeXKk 0xE#4 x 0xA1#8
  | .ldVxDt x => encodeXKk 0xF#4 x 0x07#8
  | .ldVxK x => encodeXKk 0xF#4 x 0x0A#8
  | .ldDtVx x => encodeXKk 0xF#4 x 0x15#8
  | .ldStVx x => encodeXKk 0xF#4 x 0x18#8
  | .addIVx x => encodeXKk 0xF#4 x 0x1E#8
  | .ldFVx x => encodeXKk 0xF#4 x 0x29#8
  | .ldBVx x => encodeXKk 0xF#4 x 0x33#8
  | .ldMiVx x => encodeXKk 0xF#4 x 0x55#8
  | .ldVxMi x => encodeXKk 0xF#4 x 0x65#8

/-- One row of the opcode table: `(w & mask) == pattern` selects it (R74). -/
structure OpcodeRow where
  /-- The row's identifier. -/
  mnemonic : String
  /-- The match value. -/
  pattern : Word
  /-- The mask. -/
  mask : Word
deriving DecidableEq, Repr

/-- A row selects a word (R74). -/
def OpcodeRow.selects (r : OpcodeRow) (w : Word) : Bool := w &&& r.mask == r.pattern

/-- Rows 1 to 8 of R74. -/
def opcodeRowsA : List OpcodeRow :=
  [⟨"CLS", 0x00E0#16, 0xFFFF#16⟩, ⟨"RET", 0x00EE#16, 0xFFFF#16⟩, ⟨"SYS", 0x0000#16, 0xF000#16⟩,
   ⟨"JP", 0x1000#16, 0xF000#16⟩, ⟨"CALL", 0x2000#16, 0xF000#16⟩, ⟨"SE_VX_KK", 0x3000#16, 0xF000#16⟩,
   ⟨"SNE_VX_KK", 0x4000#16, 0xF000#16⟩, ⟨"SE_VX_VY", 0x5000#16, 0xF00F#16⟩]

/-- Rows 9 to 20 of R74. -/
def opcodeRowsB : List OpcodeRow :=
  [⟨"LD_VX_KK", 0x6000#16, 0xF000#16⟩, ⟨"ADD_VX_KK", 0x7000#16, 0xF000#16⟩, ⟨"LD_VX_VY", 0x8000#16, 0xF00F#16⟩,
   ⟨"OR", 0x8001#16, 0xF00F#16⟩, ⟨"AND", 0x8002#16, 0xF00F#16⟩, ⟨"XOR", 0x8003#16, 0xF00F#16⟩,
   ⟨"ADD_VX_VY", 0x8004#16, 0xF00F#16⟩, ⟨"SUB", 0x8005#16, 0xF00F#16⟩, ⟨"SHR", 0x8006#16, 0xF00F#16⟩,
   ⟨"SUBN", 0x8007#16, 0xF00F#16⟩, ⟨"SHL", 0x800E#16, 0xF00F#16⟩, ⟨"SNE_VX_VY", 0x9000#16, 0xF00F#16⟩]

/-- Rows 21 to 35 of R74. -/
def opcodeRowsC : List OpcodeRow :=
  [⟨"LD_I_NNN", 0xA000#16, 0xF000#16⟩, ⟨"JP_V0", 0xB000#16, 0xF000#16⟩, ⟨"RND", 0xC000#16, 0xF000#16⟩,
   ⟨"DRW", 0xD000#16, 0xF000#16⟩, ⟨"SKP", 0xE09E#16, 0xF0FF#16⟩, ⟨"SKNP", 0xE0A1#16, 0xF0FF#16⟩,
   ⟨"LD_VX_DT", 0xF007#16, 0xF0FF#16⟩, ⟨"LD_VX_K", 0xF00A#16, 0xF0FF#16⟩, ⟨"LD_DT_VX", 0xF015#16, 0xF0FF#16⟩,
   ⟨"LD_ST_VX", 0xF018#16, 0xF0FF#16⟩, ⟨"ADD_I_VX", 0xF01E#16, 0xF0FF#16⟩, ⟨"LD_F_VX", 0xF029#16, 0xF0FF#16⟩,
   ⟨"LD_B_VX", 0xF033#16, 0xF0FF#16⟩, ⟨"LD_MI_VX", 0xF055#16, 0xF0FF#16⟩, ⟨"LD_VX_MI", 0xF065#16, 0xF0FF#16⟩]

/-- The complete opcode table, in the order the rows are tested (R74). -/
def opcodeTable : List OpcodeRow := opcodeRowsA ++ opcodeRowsB ++ opcodeRowsC

/-- The identifier of the first row that selects a word, none if no row does (R74). -/
def tableMnemonic (w : Word) : Option String :=
  (opcodeTable.find? (fun r => r.selects w)).map OpcodeRow.mnemonic

end Sys2Proof
end

