-- ==== Sys2Proof/Config.lean ====
section
/-! DEFINITION. What is fixed for the machine (R6), the launch parameters (R7), and the free draws of the environment (R95). -/

namespace Sys2Proof

/-- `MEM_SIZE`: addresses 0x000 to 0xFFF (R6, R50). -/
abbrev Config.memSize : Nat := 4096

/-- `FONT_BASE` (R6, R52). -/
abbrev Config.fontBase : Nat := 0x050

/-- The font table holds 16 glyphs of 5 bytes (R6, R52). -/
abbrev Config.fontSize : Nat := 80

/-- `PROG_BASE`, where a program is loaded and starts (R6, R53). -/
abbrev Config.progBase : Nat := 0x200

/-- The largest program, 4096 - 0x200 bytes (R6, R262). -/
abbrev Config.maxProgram : Nat := 3584

/-- `STACK_DEPTH` (R6, R26). -/
abbrev Config.stackDepth : Nat := 16

/-- The default `RNG_SEED`, its state word (R7, R38). -/
abbrev Config.seedState : BitVec 64 := 0x853c49e6748fea9b#64

/-- The default `RNG_SEED`, its increment (R7, R38). -/
abbrev Config.seedInc : BitVec 64 := 0xda3e39cb94b95bdb#64

/-- `SHL_FLAG_MODE` (R7, R143; decision D13): how `8xyE` computes its flag. -/
inductive ShlFlagMode where
  /-- VF is the top bit of Vx before the shift: the default, and the normative reading. -/
  | topBit
  /-- VF is 0: the reading of the source code's wrong mask. -/
  | legacyZero
deriving DecidableEq, Repr, Inhabited

/-- The five inputs the environment draws for one machine cycle (R95, R240). -/
structure CycleInput where
  /-- The 60 Hz timer period has elapsed. -/
  tick : Bool
  /-- The 60 Hz input period has elapsed. -/
  sample : Bool
  /-- The keys currently down; read only if `sample`. -/
  down : KeySet
  /-- The termination key is down; read only if `sample`. -/
  term : Bool
  /-- The render sink redraws now; effective only if `Dirty`. -/
  render : Bool
deriving DecidableEq, Repr, Inhabited

/-- A cycle in which the environment does nothing. -/
def CycleInput.quiet : CycleInput :=
  { tick := false, sample := false, down := 0#16, term := false, render := false }

/-- FREE VALUES (log 3): the environment's draw number `n` for the cycles whose inputs `State.inputs` does not list.
No body: nothing can be proved of a draw (R95, R98). -/
opaque Config.freeInput : Nat → CycleInput

/-- The launch parameters a model takes as arguments (R7). -/
structure LaunchParams where
  /-- `FONT`, the 80 font bytes (decision D15). -/
  font : Vector Byte Config.fontSize
  /-- `RNG_SEED`, state word (decision D12). -/
  rngState : BitVec 64
  /-- `RNG_SEED`, increment. -/
  rngInc : BitVec 64
  /-- `SHL_FLAG_MODE` (decision D13). -/
  shlFlagMode : ShlFlagMode
deriving DecidableEq, Repr

end Sys2Proof
end

