-- ==== Sys2Proof/Machine/Font.lean ====
section
/-! DEFINITION. The default of the launch parameter `FONT` (R7, R52; log 6). -/

namespace Sys2Proof.Machine

/-- Glyphs 0 to 7. PRESUMED (log 6): the source gives no bytes for them (R52). -/
def glyphs0to7 : List Byte :=
  [0xF0#8, 0x90#8, 0x90#8, 0x90#8, 0xF0#8,
   0x20#8, 0x60#8, 0x20#8, 0x20#8, 0x70#8,
   0xF0#8, 0x10#8, 0xF0#8, 0x80#8, 0xF0#8,
   0xF0#8, 0x10#8, 0xF0#8, 0x10#8, 0xF0#8,
   0x90#8, 0x90#8, 0xF0#8, 0x10#8, 0x10#8,
   0xF0#8, 0x80#8, 0xF0#8, 0x10#8, 0xF0#8,
   0xF0#8, 0x80#8, 0xF0#8, 0x90#8, 0xF0#8,
   0xF0#8, 0x10#8, 0x20#8, 0x40#8, 0x40#8]

/-- Glyphs 8 to E, PRESUMED (log 6), and glyph F, whose bytes the source gives (R52). -/
def glyphs8toF : List Byte :=
  [0xF0#8, 0x90#8, 0xF0#8, 0x90#8, 0xF0#8,
   0xF0#8, 0x90#8, 0xF0#8, 0x10#8, 0xF0#8,
   0xF0#8, 0x90#8, 0xF0#8, 0x90#8, 0x90#8,
   0xE0#8, 0x90#8, 0xE0#8, 0x90#8, 0xE0#8,
   0xF0#8, 0x80#8, 0x80#8, 0x80#8, 0xF0#8,
   0xE0#8, 0x90#8, 0x90#8, 0x90#8, 0xE0#8,
   0xF0#8, 0x80#8, 0xF0#8, 0x80#8, 0xF0#8,
   0xF0#8, 0x80#8, 0xF0#8, 0x80#8, 0x80#8]

/-- The default font as bytes: glyph N is at offset 5 N (R52). -/
def defaultFontBytes : List Byte := glyphs0to7 ++ glyphs8toF

/-- The default of `FONT` (R7). -/
def defaultFont : Vector Byte Config.fontSize := ⟨defaultFontBytes.toArray, rfl⟩

end Sys2Proof.Machine
end

