-- ==== Sys2Proof/Machine/State.lean ====
section
/-! DEFINITION. The complete state of the machine (R41) as plain data, its halt reasons (R220, R222), its faults and
refusals, and the state right after initialisation (R260). -/

namespace Sys2Proof.Machine

/-- Memory: the bytes that differ from what an unlisted address reads as (`Memory.base` of Ops.lean), addresses strictly
rising (R50). -/
abbrev Memory := List Host.Cell

/-- `Disp[r][c]`: 32 rows of 64 single-bit pixels (R34). -/
abbrev Display := Vector (Vector Bool 64) 32

/-- Why a run ended, with the record `info` stored with it (R220, R222). -/
inductive HaltReason where
  /-- PC at or beyond `END` at the start of a cycle: the normal end (R96). -/
  | programEnd (pc : Word)
  /-- The termination key was down at a sample; `pc` is PC after the cycle's dispatch step (R235). -/
  | terminated (pc : Word)
  /-- The ROM is longer than the program memory; `len` is its length (R262). -/
  | outOfSpace (len : Nat)
  /-- A byte address at or above 4096; `pc` is the instruction's address, `addr` the first such byte (R56, R57). -/
  | outOfBounds (pc : Word) (addr : Nat)
  /-- `push` with SP = 16 (R27). -/
  | stackOverflow (pc : Word)
  /-- `pop` with SP = 0 (R28). -/
  | stackUnderflow (pc : Word)
  /-- The fetched word matches no row of the opcode table (R72, R91). -/
  | invalidOpcode (pc : Word) (word : Word)
deriving DecidableEq, Repr

/-- The run status (R39). -/
inductive Status where
  /-- Cycles go on. -/
  | running
  /-- The run has ended for good. -/
  | halted (reason : HaltReason)
deriving DecidableEq, Repr

/-- Why `step` has no next state. -/
inductive Fault where
  /-- Raised by `step` on a machine that is already halted: it has no further cycle (R39, R95, R221). SAFE: the hardware
  does not go on either. The condition that halted the machine was itself a next state (log 1). -/
  | halted (reason : HaltReason)
deriving DecidableEq, Repr

/-- What the model has no meaning for. -/
inductive Refusal where
  /-- Raised by `exec` for an instruction without a meaning yet; no arm of `exec` answers it in this model. SAFE: the model
  stops where the hardware goes on. -/
  | notModelled (mnemonic : String)
deriving DecidableEq, Repr

/-- The whole state of the machine (R41); the last two fields are the model's own (log 3). -/
@[ext]
structure State where
  /-- Memory (R50). -/
  mem : Memory
  /-- V0 to VF (R20). -/
  v : Vector Byte 16
  /-- The index register I (R22). -/
  i : Word
  /-- The program counter (R24). -/
  pc : Word
  /-- The stack pointer: the number of stack entries in use, 0 to 16 (R26). -/
  sp : Nat
  /-- The return addresses (R26). -/
  stack : Vector Word 16
  /-- The delay timer (R30). -/
  dt : Byte
  /-- The sound timer (R30, R31). -/
  st : Byte
  /-- The display (R34). -/
  disp : Display
  /-- The display's dirty flag (R35). -/
  dirty : Bool
  /-- The input latch (R36). -/
  latch : KeySet
  /-- The keys down at the previous sample (R37). -/
  prevDown : KeySet
  /-- The PRNG's state word (R38). -/
  rngState : BitVec 64
  /-- The PRNG's increment, a constant of a run (R38). -/
  rngInc : BitVec 64
  /-- The number of bytes loaded, a constant of a run (R40). -/
  programSize : Nat
  /-- The run status (R39). -/
  status : Status
  /-- `SHL_FLAG_MODE`, a launch parameter and a constant of a run (R7; log 8). -/
  shlFlagMode : ShlFlagMode
  /-- MODEL'S OWN: the cycle inputs the environment has drawn already, oldest first (R95; log 3). -/
  inputs : List CycleInput
  /-- MODEL'S OWN: how many draws have been used (log 3). -/
  cycle : Nat
deriving DecidableEq, Repr

/-- The machine right after initialisation with a ROM of 0 bytes (R41, R260; log 5). Memory lists nothing: an unlisted
address reads as the font or as 0 (R53). -/
def State.reset : State :=
  { mem := []
    v := Vector.replicate 16 0#8
    i := 0#16
    pc := 0x200#16
    sp := 0
    stack := Vector.replicate 16 0#16
    dt := 0#8
    st := 0#8
    disp := Vector.replicate 32 (Vector.replicate 64 false)
    dirty := false
    latch := 0#16
    prevDown := 0#16
    rngState := Config.seedState
    rngInc := Config.seedInc
    programSize := 0
    status := .running
    shlFlagMode := .topBit
    inputs := []
    cycle := 0 }

/-- What an instruction's meaning answers. -/
abbrev Result := Host.Outcome State Fault Refusal

end Sys2Proof.Machine
end

