-- ==== Sys2Proof/Machine/Ops.lean ====
section
/-! DEFINITION. The named operations over memory, registers, stack and status that every meaning is written with: byte and
word access (R56 to R58), push and pop (R27, R28), the skip (R92), and ending a run (R220, R221), the machine's only form of
taking an exception. There is no return from one (R224), so no operation for it. -/

namespace Sys2Proof.Machine

/-! ### Memory -/

/-- What an address that memory does not list reads as: the contents after initialisation with the default font and no
program (R53). -/
def Memory.base (addr : Nat) : Byte :=
  if Config.fontBase ≤ addr then defaultFontBytes.getD (addr - Config.fontBase) 0#8 else 0#8

/-- The byte at an address. -/
def Memory.read : Memory → Nat → Byte
  | [], addr => Memory.base addr
  | (b, w) :: m, addr => if b = addr then w else Memory.read m addr

/-- List one more byte, keeping the addresses in order. -/
def Memory.insert : Memory → Nat → Byte → Memory
  | [], addr, v => [(addr, v)]
  | (b, w) :: m, addr, v =>
    if addr < b then (addr, v) :: (b, w) :: m else (b, w) :: Memory.insert m addr v

/-- Memory with one byte replaced. A byte equal to what an unlisted address reads as is not listed. -/
def Memory.write (m : Memory) (addr : Nat) (v : Byte) : Memory :=
  let rest := m.filter (fun c => c.1 != addr)
  if v = Memory.base addr then rest else Memory.insert rest addr v

/-- Consecutive bytes replaced, in ascending order (R60). -/
def Memory.writeAll : Memory → Nat → List Byte → Memory
  | m, _, [] => m
  | m, addr, b :: bs => Memory.writeAll (Memory.write m addr b) (addr + 1) bs

/-- From address `lo` on: strictly rising, inside the address space, no byte equal to what an unlisted address reads as. -/
def Memory.wfFrom : Nat → Memory → Bool
  | _, [] => true
  | lo, (b, w) :: m =>
    decide (lo ≤ b) && decide (b < Config.memSize) && w != Memory.base b && Memory.wfFrom (b + 1) m

/-- The canonical form of memory: equal memories are equal lists. -/
def Memory.wf (m : Memory) : Bool := Memory.wfFrom 0 m

/-- `MemRead(addr, 1)`: the byte, or the address that is out of bounds (R56). -/
def State.memRead (s : State) (addr : Nat) : Except Nat Byte :=
  if addr < Config.memSize then .ok (s.mem.read addr) else .error addr

/-- Replace the byte at an address that is in bounds. -/
def State.setByte (s : State) (addr : Nat) (v : Byte) : State := { s with mem := s.mem.write addr v }

/-- `MemWrite(addr, 1, v)`: the state with the byte written, or the address that is out of bounds (R57). -/
def State.memWrite (s : State) (addr : Nat) (v : Byte) : Except Nat State :=
  if addr < Config.memSize then .ok (s.setByte addr v) else .error addr

/-- `MemRead(addr, 2)`: high byte at `addr`, low byte at `addr + 1`; the address recorded is the first out of range
(R58). -/
def State.memReadWord (s : State) (addr : Nat) : Except Nat Word :=
  match s.memRead addr with
  | .error a => .error a
  | .ok hi =>
    match s.memRead (addr + 1) with
    | .error a => .error a
    | .ok lo => .ok (wordOfBytes hi lo)

/-! ### Registers -/

/-- `V[x]` (R20). -/
def State.getV (s : State) (x : Nibble) : Byte := s.v[x.toNat]'(x.isLt)

/-- `V[x] <- b` (R20). -/
def State.setV (s : State) (x : Nibble) (b : Byte) : State := { s with v := s.v.set x.toNat b x.isLt }

/-- `I <- a` (R22). -/
def State.setI (s : State) (a : Word) : State := { s with i := a }

/-- `PC <- a` (R24). -/
def State.setPc (s : State) (a : Word) : State := { s with pc := a }

/-- `DT <- b` (R30). -/
def State.setDt (s : State) (b : Byte) : State := { s with dt := b }

/-- `ST <- b` (R30). -/
def State.setSt (s : State) (b : Byte) : State := { s with st := b }

/-- The PRNG's state word replaced (R38). -/
def State.setRng (s : State) (a : BitVec 64) : State := { s with rngState := a }

/-- The display replaced and marked dirty: both operations of the compositor end so (R35, R181, R187). -/
def State.setDisp (s : State) (d : Display) : State := { s with disp := d, dirty := true }

/-- The address `a` of the instruction being executed: PC holds `a + 2` until a control transfer writes it (R24, R91). -/
def State.instrAddr (s : State) : Word := s.pc - 2#16

/-- `skip()`: 2 more on top of the advance (R92). -/
def State.skip (s : State) : State := s.setPc (s.pc + 2#16)

/-- `END = 0x200 + programSize` (R40, R96). -/
def State.endAddr (s : State) : Nat := Config.progBase + s.programSize

/-! ### Ending a run -/

/-- The code of a halt reason (R220). -/
def HaltReason.code : HaltReason → Nat
  | .programEnd _ => 0
  | .terminated _ => 1
  | .outOfSpace _ => 2
  | .outOfBounds _ _ => 3
  | .stackOverflow _ => 4
  | .stackUnderflow _ => 5
  | .invalidOpcode _ _ => 6

/-- `Status <- Halted(reason, info)`: what `halt` and `raise` do (R96, R220). What the statements before it did stays done
(R221), nothing else changes (R224). -/
def State.halt (s : State) (r : HaltReason) : State := { s with status := .halted r }

/-! ### The stack -/

/-- One entry more on the stack. -/
def State.pushed (s : State) (a : Word) : State :=
  { s with stack := s.stack.setIfInBounds s.sp a, sp := s.sp + 1 }

/-- The top entry taken off; the entry itself is not cleared (R28). -/
def State.popped (s : State) : State := { s with sp := s.sp - 1 }

/-- The top of the stack, `Stack[SP - 1]` (R26). -/
def State.stackTop (s : State) : Word := s.stack.getD (s.sp - 1) 0#16

/-- `push(v)`: the state after it, or `StackOverflow` with the instruction's address (R27, R222). -/
def State.push (s : State) (a : Word) : Except HaltReason State :=
  if s.sp < Config.stackDepth then .ok (s.pushed a) else .error (.stackOverflow s.instrAddr)

/-- `pop()`: the entry and the state after it, or `StackUnderflow` with the instruction's address (R28, R222). -/
def State.pop (s : State) : Except HaltReason (Word × State) :=
  if s.sp = 0 then .error (.stackUnderflow s.instrAddr) else .ok (s.stackTop, s.popped)

/-! ### Multi-byte accesses at I -/

/-- Store bytes at ascending addresses; the first address out of bounds ends the run, with the earlier bytes stored
(R60, R163, R164). -/
def State.storeBytes : State → Nat → List Byte → State
  | s, _, [] => s
  | s, addr, b :: bs =>
    match s.memWrite addr b with
    | .ok t => State.storeBytes t (addr + 1) bs
    | .error bad => s.halt (.outOfBounds s.instrAddr bad)

/-- Load `count` registers from `V[k]` on from ascending addresses; the first address out of bounds ends the run, with the
earlier registers loaded (R60, R165). -/
def State.loadRegs : State → Nat → Nat → Nat → State
  | s, _, _, 0 => s
  | s, addr, k, count + 1 =>
    match s.memRead addr with
    | .ok b => State.loadRegs (s.setV (BitVec.ofNat 4 k) b) (addr + 1) (k + 1) count
    | .error bad => s.halt (.outOfBounds s.instrAddr bad)

/-- Read `count` bytes at ascending addresses, or the first address that is out of bounds (R182). -/
def State.readBytes (s : State) : Nat → Nat → Except Nat (List Byte)
  | _, 0 => .ok []
  | addr, count + 1 =>
    match s.memRead addr with
    | .error bad => .error bad
    | .ok b =>
      match State.readBytes s (addr + 1) count with
      | .error bad => .error bad
      | .ok bs => .ok (b :: bs)

/-! ### The inputs of a cycle -/

/-- The inputs of the next cycle: the oldest listed draw, or the environment's free draw (R95; log 3). -/
def State.input (s : State) : CycleInput :=
  match s.inputs with
  | inp :: _ => inp
  | [] => Config.freeInput s.cycle

/-- The draw used up (log 3). -/
def State.nextInput (s : State) : State := { s with inputs := s.inputs.tail, cycle := s.cycle + 1 }

/-! ### Placing an instruction -/

/-- The bytes of `w` stored at PC, with the status and the program size a fetch there needs (R95, R96; log 5). Nothing can
be fetched at or above 0xFFF. -/
def State.placeWord (s : State) (w : Word) : State :=
  { s with
    mem := if s.pc.toNat + 1 < Config.memSize then s.mem.writeAll s.pc.toNat (bytesOfWord w) else s.mem
    programSize := max s.programSize (min (s.pc.toNat + 2 - Config.progBase) Config.maxProgram)
    status := .running }

end Sys2Proof.Machine
end

