-- ==== Sys2Proof/Machine/Flags.lean ====
section
/-! DEFINITION. The values VF takes as a flag (R21, R136, R183). -/

namespace Sys2Proof.Machine

/-- `bool(c)` as a register value (R9). -/
def flagByte (c : Bool) : Byte := if c then 1#8 else 0#8

/-- Carry out of an addition: the exact sum exceeds 255 (R139). -/
def carryFlag (a b : Byte) : Byte := flagByte (decide (a.toNat + b.toNat > 255))

/-- No borrow of `a - b`: `a >= b`, unsigned (R140, R142). -/
def noBorrowFlag (a b : Byte) : Byte := flagByte (decide (a.toNat ≥ b.toNat))

/-- The bit a right shift by one moves out (R141). -/
def shrFlag (a : Byte) : Byte := a &&& 1#8

/-- The flag of a left shift by one, by `SHL_FLAG_MODE` (R143). -/
def shlFlag (mode : ShlFlagMode) (a : Byte) : Byte :=
  match mode with
  | .topBit => (a >>> 7) &&& 1#8
  | .legacyZero => 0#8

/-- The collision flag of a sprite (R182, R183). -/
def collisionFlag (hit : Bool) : Byte := flagByte hit

end Sys2Proof.Machine
end

