-- ==== Sys2Proof/Machine/Prng.lean ====
section
/-! DEFINITION. The PRNG service `random_byte()` (R150 to R153; log 9). -/

namespace Sys2Proof.Machine

/-- The step of the state word, modulo 2^64 (R150). -/
def pcgStep (old inc : BitVec 64) : BitVec 64 := 6364136223846793005#64 * old + (inc ||| 1#64)

/-- The output transform of the old state. PRESUMED by the spec (log 9): the source names it and gives no constant
(R151). -/
def xshRr (old : BitVec 64) : BitVec 32 :=
  let xorshifted : BitVec 32 := (((old >>> 18) ^^^ old) >>> 27).setWidth 32
  let rot : Nat := (old >>> 59).toNat
  (xorshifted >>> rot) ||| (xorshifted <<< ((32 - rot) % 32))

/-- `random_byte()`: the low 8 bits of the transform of the old state, and the state advanced by one step (R150). -/
def State.randomByte (s : State) : Byte × State :=
  ((xshRr s.rngState).setWidth 8, s.setRng (pcgStep s.rngState s.rngInc))

end Sys2Proof.Machine
end

