-- ==== Sys2Proof/Machine/Alu.lean ====
section
/-! DEFINITION. Register loads, arithmetic, shifts and the random byte (spec/42_alu.md). A flag is written to VF first and
the destination second, and each operand is read when its statement runs (R11; log 10), which gives the results of R137 when
`x` or `y` is F. -/

namespace Sys2Proof.Machine

/-- `6xkk` LD Vx, kk (R130). -/
def execLdVxKk (x : Nibble) (kk : Byte) (s : State) : Result := .next (s.setV x kk)

/-- `7xkk` ADD Vx, kk: no flag (R131). -/
def execAddVxKk (x : Nibble) (kk : Byte) (s : State) : Result := .next (s.setV x (s.getV x + kk))

/-- `8xy0` LD Vx, Vy (R132). -/
def execLdVxVy (x y : Nibble) (s : State) : Result := .next (s.setV x (s.getV y))

/-- `8xy1` OR Vx, Vy: VF is not reset (R133). -/
def execOr (x y : Nibble) (s : State) : Result := .next (s.setV x (s.getV x ||| s.getV y))

/-- `8xy2` AND Vx, Vy: VF is not reset (R134). -/
def execAnd (x y : Nibble) (s : State) : Result := .next (s.setV x (s.getV x &&& s.getV y))

/-- `8xy3` XOR Vx, Vy: VF is not reset (R135). -/
def execXor (x y : Nibble) (s : State) : Result := .next (s.setV x (s.getV x ^^^ s.getV y))

/-- `8xy4` ADD Vx, Vy: the sum is a temporary, taken before VF is written (R139). -/
def execAddVxVy (x y : Nibble) (s : State) : Result :=
  let sum := s.getV x + s.getV y
  let t := s.setV vf (carryFlag (s.getV x) (s.getV y))
  .next (t.setV x sum)

/-- `8xy5` SUB Vx, Vy: the operands of the difference are read after the VF write (R140). -/
def execSub (x y : Nibble) (s : State) : Result :=
  let t := s.setV vf (noBorrowFlag (s.getV x) (s.getV y))
  .next (t.setV x (t.getV x - t.getV y))

/-- `8xy6` SHR Vx: `y` is ignored (R141). -/
def execShr (x _y : Nibble) (s : State) : Result :=
  let t := s.setV vf (shrFlag (s.getV x))
  .next (t.setV x (t.getV x >>> 1))

/-- `8xy7` SUBN Vx, Vy: the operands of the difference are read after the VF write (R142). -/
def execSubn (x y : Nibble) (s : State) : Result :=
  let t := s.setV vf (noBorrowFlag (s.getV y) (s.getV x))
  .next (t.setV x (t.getV y - t.getV x))

/-- `8xyE` SHL Vx: `y` is ignored (R143). -/
def execShl (x _y : Nibble) (s : State) : Result :=
  let t := s.setV vf (shlFlag s.shlFlagMode (s.getV x))
  .next (t.setV x (t.getV x <<< 1))

/-- `Cxkk` RND Vx, kk: the PRNG advances whatever `kk` is (R144). -/
def execRnd (x : Nibble) (kk : Byte) (s : State) : Result :=
  let r := s.randomByte
  .next (r.2.setV x (r.1 &&& kk))

end Sys2Proof.Machine
end

