-- ==== Sys2Proof/Machine/Operands.lean ====
section
/-! DEFINITION. The operand forms of the instruction set (R61, R71, R206): what an instruction reads through a field. The
register and immediate forms are `State.getV` and the field itself. -/

namespace Sys2Proof.Machine

/-- An address field as a 16-bit PC or I value (R71, `zext_16`). -/
def zext16 (nnn : Addr) : Word := nnn.setWidth 16

/-- A register byte as a 16-bit summand (R71, R118, R161, R162). -/
def zextByte (b : Byte) : Word := b.setWidth 16

/-- The effective address `I + k`, an exact sum that never wraps (R61). -/
def State.effAddr (s : State) (k : Nat) : Nat := s.i.toNat + k

/-- The address `0x050 + 5 * Vx` of the glyph a register names; the register is used whole (R52, R162). -/
def glyphAddr (b : Byte) : Word := BitVec.ofNat 16 Config.fontBase + 5#16 * zextByte b

/-- `latched(v)`: `v` is a key index and that key is in the latch; 16 to 255 name no key (R206). -/
def State.latched (s : State) (b : Byte) : Bool := decide (b.toNat ≤ 15) && s.latch.getLsbD b.toNat

/-- `min(A)`: the lowest-numbered key of a set, none if the set is empty (R9, R203). -/
def lowestKey (keys : KeySet) : Option Nat := (List.range 16).find? (fun k => keys.getLsbD k)

/-- The three decimal digits of a byte, hundreds first: exact divisions by constants (R136, R163). -/
def bcdDigits (b : Byte) : List Byte :=
  [BitVec.ofNat 8 (b.toNat / 100 % 10), BitVec.ofNat 8 (b.toNat / 10 % 10), BitVec.ofNat 8 (b.toNat % 10)]

/-- V0 to Vx, ascending (R164). -/
def State.regsUpTo (s : State) (x : Nibble) : List Byte :=
  (List.range (x.toNat + 1)).map (fun k => s.getV (BitVec.ofNat 4 k))

end Sys2Proof.Machine
end

