-- ==== Sys2Proof/Machine/Compositor.lean ====
section
/-! DEFINITION. The display compositor and its two instructions (spec/44_display.md). -/

namespace Sys2Proof.Machine

/-- `Disp[r][c]` (R34). -/
def Display.pixel (d : Display) (r : Fin 32) (c : Fin 64) : Bool := (d.get r).get c

/-- `Disp[r][c] <- b` (R34). -/
def Display.setPixel (d : Display) (r : Fin 32) (c : Fin 64) (b : Bool) : Display :=
  d.set r.val ((d.get r).set c.val b c.isLt) r.isLt

/-- The display with every pixel 0 (R181). -/
def Display.clear : Display := Vector.replicate 32 (Vector.replicate 64 false)

/-- A row coordinate, taken modulo the height (R181, R185). -/
def dispRow (y : Nat) : Fin 32 := ⟨y % 32, Nat.mod_lt y (by decide)⟩

/-- A column coordinate, taken modulo the width (R181, R185). -/
def dispCol (x : Nat) : Fin 64 := ⟨x % 64, Nat.mod_lt x (by decide)⟩

/-- Bit `k` of a sprite row, most significant bit leftmost (R184). -/
def spriteBit (row : Byte) (k : Nat) : Bool := row.getLsbD (7 - k)

/-- One pixel of a sprite: the new pixel is old XOR bit, and a pixel that goes from 1 to 0 is a collision, kept for the
whole sprite (R181, R183). -/
def plot (dc : Display × Bool) (r : Fin 32) (c : Fin 64) (bit : Bool) : Display × Bool :=
  let old := dc.1.pixel r c
  let new := old ^^ bit
  (dc.1.setPixel r c new, dc.2 || (old && !new))

/-- The 8 pixels of one sprite row (R181). -/
def drawRow (x0 y : Nat) (row : Byte) (dc : Display × Bool) : Display × Bool :=
  (List.range 8).foldl (fun acc k => plot acc (dispRow y) (dispCol (x0 + k)) (spriteBit row k)) dc

/-- The rows of a sprite, downwards from `y` (R181). -/
def drawRows (x0 : Nat) : Nat → List Byte → Display × Bool → Display × Bool
  | _, [], dc => dc
  | y, row :: rows, dc => drawRows x0 (y + 1) rows (drawRow x0 y row dc)

/-- `draw(x0, y0, n, rows)`: the new display and the collision flag (R181). -/
def draw (x0 y0 : Nat) (rows : List Byte) (d : Display) : Display × Bool := drawRows x0 y0 rows (d, false)

/-- `00E0` CLS (R180). -/
def execCls (s : State) : Result := .next (s.setDisp Display.clear)

/-- `Dxyn` DRW Vx, Vy, n: all rows are read before a pixel changes, and VF is written last (R182). -/
def execDrw (x y n : Nibble) (s : State) : Result :=
  match s.readBytes (s.effAddr 0) n.toNat with
  | .error bad => .next (s.halt (.outOfBounds s.instrAddr bad))
  | .ok rows =>
    let out := draw (s.getV x).toNat (s.getV y).toNat rows s.disp
    .next ((s.setDisp out.1).setV vf (collisionFlag out.2))

end Sys2Proof.Machine
end

