-- ==== Sys2Proof/Machine/Control.lean ====
section
/-! DEFINITION. Control transfer and skips (spec/41_control.md). PC already holds `a + 2` (R91). -/

namespace Sys2Proof.Machine

/-- PC loaded with a 12-bit target; no target is checked (R111, R112). -/
def State.jumpTo (s : State) (nnn : Addr) : State := s.setPc (zext16 nnn)

/-- Skip the next word if `c` (R92). -/
def State.skipIf (s : State) (c : Bool) : State := if c then s.skip else s

/-- `00EE` RET (R110). -/
def execRet (s : State) : Result :=
  match s.pop with
  | .ok (a, t) => .next (t.setPc a)
  | .error e => .next (s.halt e)

/-- `0nnn` SYS, executed as a jump (R111). -/
def execSys (nnn : Addr) (s : State) : Result := .next (s.jumpTo nnn)

/-- `1nnn` JP (R112). -/
def execJp (nnn : Addr) (s : State) : Result := .next (s.jumpTo nnn)

/-- `2nnn` CALL (R113). -/
def execCall (nnn : Addr) (s : State) : Result :=
  match s.push s.pc with
  | .ok t => .next (t.jumpTo nnn)
  | .error e => .next (s.halt e)

/-- `3xkk` SE Vx, kk (R114). -/
def execSeVxKk (x : Nibble) (kk : Byte) (s : State) : Result := .next (s.skipIf (s.getV x == kk))

/-- `4xkk` SNE Vx, kk (R115). -/
def execSneVxKk (x : Nibble) (kk : Byte) (s : State) : Result := .next (s.skipIf (s.getV x != kk))

/-- `5xy0` SE Vx, Vy (R116). -/
def execSeVxVy (x y : Nibble) (s : State) : Result := .next (s.skipIf (s.getV x == s.getV y))

/-- `9xy0` SNE Vx, Vy (R117). -/
def execSneVxVy (x y : Nibble) (s : State) : Result := .next (s.skipIf (s.getV x != s.getV y))

/-- `Bnnn` JP V0, nnn: the exact sum, neither wrapped nor masked (R118). -/
def execJpV0 (nnn : Addr) (s : State) : Result := .next (s.setPc (zext16 nnn + zextByte (s.getV 0x0#4)))

end Sys2Proof.Machine
end

