-- ==== Sys2Proof/Machine/IndexMemory.lean ====
section
/-! DEFINITION. The index register and the memory transfers at I (spec/43_index_memory.md). -/

namespace Sys2Proof.Machine

/-- `Annn` LD I, nnn (R160). -/
def execLdINnn (nnn : Addr) (s : State) : Result := .next (s.setI (zext16 nnn))

/-- `Fx1E` ADD I, Vx: modulo 2^16, no flag (R161). -/
def execAddIVx (x : Nibble) (s : State) : Result := .next (s.setI (s.i + zextByte (s.getV x)))

/-- `Fx29` LD F, Vx: no memory access (R162). -/
def execLdFVx (x : Nibble) (s : State) : Result := .next (s.setI (glyphAddr (s.getV x)))

/-- `Fx33` LD B, Vx (R163). -/
def execLdBVx (x : Nibble) (s : State) : Result := .next (s.storeBytes (s.effAddr 0) (bcdDigits (s.getV x)))

/-- `Fx55` LD [I], Vx: I is not changed (R164). -/
def execLdMiVx (x : Nibble) (s : State) : Result := .next (s.storeBytes (s.effAddr 0) (s.regsUpTo x))

/-- `Fx65` LD Vx, [I]: I is not changed (R165). -/
def execLdVxMi (x : Nibble) (s : State) : Result := .next (s.loadRegs (s.effAddr 0) 0 (x.toNat + 1))

end Sys2Proof.Machine
end

