-- ==== Sys2Proof/Machine/TimersInput.lean ====
section
/-! DEFINITION. Timer access and key input (spec/45_timers_input.md). -/

namespace Sys2Proof.Machine

/-- `Ex9E` SKP Vx: the latch is not consumed (R200). -/
def execSkp (x : Nibble) (s : State) : Result := .next (s.skipIf (s.latched (s.getV x)))

/-- `ExA1` SKNP Vx (R201). -/
def execSknp (x : Nibble) (s : State) : Result := .next (s.skipIf (!s.latched (s.getV x)))

/-- `Fx07` LD Vx, DT (R202). -/
def execLdVxDt (x : Nibble) (s : State) : Result := .next (s.setV x s.dt)

/-- `Fx0A` LD Vx, K: with an empty latch PC rolls back and the same instruction is dispatched again in the next cycle
(R203). -/
def execLdVxK (x : Nibble) (s : State) : Result :=
  match lowestKey s.latch with
  | none => .next (s.setPc (s.pc - 2#16))
  | some k => .next (s.setV x (BitVec.ofNat 8 k))

/-- `Fx15` LD DT, Vx (R204). -/
def execLdDtVx (x : Nibble) (s : State) : Result := .next (s.setDt (s.getV x))

/-- `Fx18` LD ST, Vx (R205). -/
def execLdStVx (x : Nibble) (s : State) : Result := .next (s.setSt (s.getV x))

end Sys2Proof.Machine
end

