-- ==== Sys2Proof/Machine/Events.lean ====
section
/-! DEFINITION. The events of a cycle that no instruction performs (spec/60_exceptions.md): the timer tick, the input sample,
the render, and the outputs of the block. -/

namespace Sys2Proof.Machine

/-- A timer counts down and stops at 0 (R30, R230). -/
def countDown (b : Byte) : Byte := if b = 0#8 then 0#8 else b - 1#8

/-- `timer_tick()` (R230). -/
def State.timerTick (s : State) : State := (s.setDt (countDown s.dt)).setSt (countDown s.st)

/-- The latch and the set of keys down replaced by a sample (R36, R37). -/
def State.setKeys (s : State) (latch prevDown : KeySet) : State := { s with latch := latch, prevDown := prevDown }

/-- `input_sample(down, term)`: the termination key ends the run before the latch is recomputed; otherwise the latch is the
keys down now and not at the previous sample (R233, R235). -/
def State.inputSample (s : State) (down : KeySet) (term : Bool) : State :=
  if term then s.halt (.terminated s.pc) else s.setKeys (down &&& ~~~s.prevDown) down

/-- The dirty flag cleared (R35). -/
def State.clearDirty (s : State) : State := { s with dirty := false }

/-- `render_event()`: the sink has read the display, and the flag is cleared (R243). -/
def State.renderEvent (s : State) : State := s.clearDirty

/-- The tick and the sample of a cycle, in that order (R95, R97). -/
def State.tickAndSample (s : State) (inp : CycleInput) : State :=
  let t := if inp.tick then s.timerTick else s
  if inp.sample then t.inputSample inp.down inp.term else t

/-- The render of a cycle: only while running, and only when dirty (R95, R243). -/
def State.maybeRender (s : State) (inp : CycleInput) : State :=
  match s.status with
  | .halted _ => s
  | .running => if inp.render && s.dirty then s.renderEvent else s

/-- What follows the dispatch step in a cycle. A run that the dispatch step ended has no tick, sample or render after it
(R94, R95); otherwise the three events run in order and the cycle's draw is used up. -/
def State.endCycle (s : State) (inp : CycleInput) : State :=
  match s.status with
  | .halted _ => s
  | .running => ((s.tickAndSample inp).maybeRender inp).nextInput

/-- The frame the render sink reads in a cycle, given the state after the dispatch step (R243); none without a render. The
sink keeps no state in the machine (R42). -/
def State.renderedFrame (s : State) (inp : CycleInput) : Option Display :=
  match s.status with
  | .halted _ => none
  | .running =>
    let t := s.tickAndSample inp
    match t.status with
    | .halted _ => none
    | .running => if inp.render && t.dirty then some t.disp else none

/-- The output ports of the block (R240). -/
structure Outputs where
  /-- `frame`: the display. -/
  frame : Display
  /-- `dirty`. -/
  dirty : Bool
  /-- `sound_timer`: ST (R31). -/
  soundTimer : Byte
  /-- `status`. -/
  status : Status
deriving DecidableEq, Repr

/-- What the host can read between cycles (R240). -/
def State.outputs (s : State) : Outputs :=
  { frame := s.disp, dirty := s.dirty, soundTimer := s.st, status := s.status }

end Sys2Proof.Machine
end

