-- ==== Sys2Proof/Machine/Cycle.lean ====
section
/-! DEFINITION. The dispatch step (R91) and the machine cycle around it (R95), spec/40_dispatch.md. -/

namespace Sys2Proof.Machine

/-- The word at PC, or the first address out of bounds (R58, R91). -/
def State.fetch (s : State) : Except Nat Word := s.memReadWord s.pc.toNat

/-- `PC <- a + 2`, before executing (R91). -/
def State.advance (s : State) : State := s.setPc (s.pc + 2#16)

/-- One dispatch step: fetch, advance, decode, execute. A failed fetch leaves PC at `a`; an invalid word is raised with PC
advanced (R91). -/
def dispatch (s : State) : Result :=
  match s.fetch with
  | .error bad => .next (s.halt (.outOfBounds s.pc bad))
  | .ok w =>
    match decode w with
    | .error _ => .next (s.advance.halt (.invalidOpcode s.pc w))
    | .ok i => exec i s.advance

/-- One machine cycle with the inputs `inp`: the end check, one dispatch step, then the events (R95, R96, R223). A halted
machine has no cycle (R39). -/
def runCycle (inp : CycleInput) (s : State) : Result :=
  match s.status with
  | .halted r => .fault (.halted r)
  | .running =>
    if s.endAddr ≤ s.pc.toNat then .next (s.halt (.programEnd s.pc))
    else
      match dispatch s with
      | .next t => .next (t.endCycle inp)
      | .fault f => .fault f
      | .refused r => .refused r

end Sys2Proof.Machine
end

