-- ==== Sys2Proof/Machine/Step.lean ====
section
/-! DEFINITION. The step of the machine is one cycle, with the inputs the environment has drawn for it (R95; log 3). -/

namespace Sys2Proof.Machine

/-- One machine cycle (R95). -/
def step (s : State) : Host.Outcome State Fault Refusal := runCycle s.input s

/-- The state with an instruction word stored where the next step fetches, and with the loaded program long enough and the
machine running, so that the very next step fetches and runs it (log 5). -/
def State.withFetchWord (s : State) (_nbits w : Nat) : State := s.placeWord (BitVec.ofNat 16 w)

end Sys2Proof.Machine
end

