-- ==== Sys2Proof/Machine/Load.lean ====
section
/-! DEFINITION. Initialisation and the loading of a program (spec/70_reset_and_hazards.md): how a program comes to run from
outside the machine (R241, R260, R262; log 5). -/

namespace Sys2Proof.Machine

/-- The defaults of the launch parameters (R7). -/
def defaultLaunch : LaunchParams :=
  { font := defaultFont, rngState := Config.seedState, rngInc := Config.seedInc, shlFlagMode := .topBit }

/-- `load(rom)`: all or nothing. A ROM longer than 3584 bytes ends the run with nothing written; otherwise the bytes go to
0x200 onwards (R262). -/
def State.load (s : State) (rom : List Byte) : State :=
  if rom.length > Config.maxProgram then s.halt (.outOfSpace rom.length)
  else { s with mem := s.mem.writeAll Config.progBase rom, programSize := rom.length }

/-- The state the initialisation leaves before the load, with the font written over zeroed memory (R260, R261). -/
def State.blank (p : LaunchParams) : State :=
  { State.reset with
    mem := Memory.writeAll [] Config.fontBase p.font.toList
    rngState := p.rngState
    rngInc := p.rngInc
    shlFlagMode := p.shlFlagMode }

/-- `initialise(rom, FONT, RNG_SEED)`, the load last (R260; decision D19). -/
def State.initialise (p : LaunchParams) (rom : List Byte) : State := (State.blank p).load rom

end Sys2Proof.Machine
end

