-- ==== Sys2Proof/Safety.lean ====
section
/-! DEFINITION. The terms claims use: the invariant of a run, which part of the state an instruction may write, frames, and
the environment's fairness. -/

namespace Sys2Proof.Machine

/-! ### The invariant -/

/-- What every state of a run satisfies (R25, R26, R40, R50). -/
structure State.Inv (s : State) : Prop where
  /-- Memory is in canonical form: every listed address is below 4096 and equal memories are equal lists. -/
  memory : s.mem.wf = true
  /-- SP is one of its legal values (R26). -/
  stackPointer : s.sp ≤ 16
  /-- PC never passes 0x10FE (R25). -/
  pcBound : s.pc.toNat ≤ 0x10FE
  /-- Every return address in use is one that a `2nnn` pushed, at most 0x1000 (R91, R113). -/
  returns : ∀ k (h : k < 16), k < s.sp → (s.stack[k]).toNat ≤ 0x1000
  /-- The program fits the program memory (R40). -/
  program : s.programSize ≤ 3584

/-! ### What an instruction may write -/

/-- The instructions that write VF as a flag (R21). -/
def flagWriter : Instr → Bool
  | .addVxVy _ _ | .sub _ _ | .shr _ _ | .subn _ _ | .shl _ _ | .drw _ _ _ => true
  | .cls | .ret | .sys _ | .jp _ | .call _ | .seVxKk _ _ | .sneVxKk _ _ | .seVxVy _ _ | .ldVxKk _ _ | .addVxKk _ _
  | .ldVxVy _ _ | .or _ _ | .and _ _ | .xor _ _ | .sneVxVy _ _ | .ldINnn _ | .jpV0 _ | .rnd _ _ | .skp _ | .sknp _
  | .ldVxDt _ | .ldVxK _ | .ldDtVx _ | .ldStVx _ | .addIVx _ | .ldFVx _ | .ldBVx _ | .ldMiVx _ | .ldVxMi _ => false

/-- `r` is a destination register the instruction names: Vx, and V0 to Vx for `Fx65` (R12). -/
def namesDest (r : Nibble) : Instr → Bool
  | .ldVxKk x _ | .addVxKk x _ | .ldVxVy x _ | .or x _ | .and x _ | .xor x _ | .addVxVy x _ | .sub x _ | .shr x _
  | .subn x _ | .shl x _ | .rnd x _ | .ldVxDt x | .ldVxK x => r == x
  | .ldVxMi x => decide (r.toNat ≤ x.toNat)
  | .cls | .ret | .sys _ | .jp _ | .call _ | .seVxKk _ _ | .sneVxKk _ _ | .seVxVy _ _ | .sneVxVy _ _ | .ldINnn _ | .jpV0 _
  | .drw _ _ _ | .skp _ | .sknp _ | .ldDtVx _ | .ldStVx _ | .addIVx _ | .ldFVx _ | .ldBVx _ | .ldMiVx _ => false

/-- The instructions that write PC beyond the dispatch step's advance (R25). -/
def transfersControl : Instr → Bool
  | .ret | .sys _ | .jp _ | .call _ | .seVxKk _ _ | .sneVxKk _ _ | .seVxVy _ _ | .sneVxVy _ _ | .jpV0 _ | .skp _
  | .sknp _ | .ldVxK _ => true
  | .cls | .ldVxKk _ _ | .addVxKk _ _ | .ldVxVy _ _ | .or _ _ | .and _ _ | .xor _ _ | .addVxVy _ _ | .sub _ _ | .shr _ _
  | .subn _ _ | .shl _ _ | .ldINnn _ | .rnd _ _ | .drw _ _ _ | .ldVxDt _ | .ldDtVx _ | .ldStVx _ | .addIVx _ | .ldFVx _
  | .ldBVx _ | .ldMiVx _ | .ldVxMi _ => false

/-- How many bytes at I the instruction accesses (R51). -/
def bytesAtI : Instr → Nat
  | .drw _ _ n => n.toNat
  | .ldBVx _ => 3
  | .ldMiVx x | .ldVxMi x => x.toNat + 1
  | .cls | .ret | .sys _ | .jp _ | .call _ | .seVxKk _ _ | .sneVxKk _ _ | .seVxVy _ _ | .ldVxKk _ _ | .addVxKk _ _
  | .ldVxVy _ _ | .or _ _ | .and _ _ | .xor _ _ | .addVxVy _ _ | .sub _ _ | .shr _ _ | .subn _ _ | .shl _ _
  | .sneVxVy _ _ | .ldINnn _ | .jpV0 _ | .rnd _ _ | .skp _ | .sknp _ | .ldVxDt _ | .ldVxK _ | .ldDtVx _ | .ldStVx _
  | .addIVx _ | .ldFVx _ => 0

/-- How many bytes at I the instruction stores (R51). -/
def bytesStored : Instr → Nat
  | .ldBVx _ => 3
  | .ldMiVx x => x.toNat + 1
  | .cls | .ret | .sys _ | .jp _ | .call _ | .seVxKk _ _ | .sneVxKk _ _ | .seVxVy _ _ | .ldVxKk _ _ | .addVxKk _ _
  | .ldVxVy _ _ | .or _ _ | .and _ _ | .xor _ _ | .addVxVy _ _ | .sub _ _ | .shr _ _ | .subn _ _ | .shl _ _
  | .sneVxVy _ _ | .ldINnn _ | .jpV0 _ | .rnd _ _ | .drw _ _ _ | .skp _ | .sknp _ | .ldVxDt _ | .ldVxK _ | .ldDtVx _
  | .ldStVx _ | .addIVx _ | .ldFVx _ | .ldVxMi _ => 0

/-- The instructions that write I (R22). -/
def writesIndex : Instr → Bool
  | .ldINnn _ | .addIVx _ | .ldFVx _ => true
  | .cls | .ret | .sys _ | .jp _ | .call _ | .seVxKk _ _ | .sneVxKk _ _ | .seVxVy _ _ | .ldVxKk _ _ | .addVxKk _ _
  | .ldVxVy _ _ | .or _ _ | .and _ _ | .xor _ _ | .addVxVy _ _ | .sub _ _ | .shr _ _ | .subn _ _ | .shl _ _
  | .sneVxVy _ _ | .jpV0 _ | .rnd _ _ | .drw _ _ _ | .skp _ | .sknp _ | .ldVxDt _ | .ldVxK _ | .ldDtVx _ | .ldStVx _
  | .ldBVx _ | .ldMiVx _ | .ldVxMi _ => false

/-! ### Frames: in everything but what is named, `t` is `s` -/

/-- No flag is written and no error is raised: VF and the status are as before. -/
def noFlagNoError (s t : State) : Prop := t.getV vf = s.getV vf ∧ t.status = s.status

/-- Only PC may differ. -/
def onlyPc (s t : State) : Prop := t = { s with pc := t.pc }

/-- Only the general registers may differ. -/
def onlyV (s t : State) : Prop := t = { s with v := t.v }

/-- Only I may differ. -/
def onlyI (s t : State) : Prop := t = { s with i := t.i }

/-- Only memory may differ. -/
def onlyMemory (s t : State) : Prop := t = { s with mem := t.mem }

/-- Every general register but those of `p` reads as before. -/
def otherRegs (p : Nibble → Prop) (s t : State) : Prop := ∀ r, ¬ p r → t.getV r = s.getV r

/-- Every byte of memory outside the `n` bytes at `addr` reads as before. -/
def otherBytes (addr n : Nat) (s t : State) : Prop :=
  ∀ a, (a < addr ∨ addr + n ≤ a) → t.mem.read a = s.mem.read a

/-! ### Sprites -/

/-- The sprite with the given rows, drawn at column `x0` and row `y0`, has a set bit on the pixel (r, c): both coordinates
wrap and the most significant bit is leftmost (R181, R184, R185). -/
def spriteCovers (x0 y0 : Nat) (rows : List Byte) (r : Fin 32) (c : Fin 64) : Prop :=
  ∃ j k : Nat, ∃ row, rows[j]? = some row ∧ k < 8 ∧ r.val = (y0 + j) % 32 ∧ c.val = (x0 + k) % 64 ∧
    row.getLsbD (7 - k) = true

/-- The rows of the sprite at I (R182). -/
def spriteAtI (s : State) (n : Nibble) : List Byte := (List.range n.toNat).map (fun j => s.mem.read (s.i.toNat + j))

/-! ### Runs -/

/-- A fatal error, as against a normal end (R96, R220). -/
def HaltReason.fatal : HaltReason → Bool
  | .programEnd _ => false
  | .terminated _ => false
  | .outOfSpace _ => true
  | .outOfBounds _ _ => true
  | .stackOverflow _ => true
  | .stackUnderflow _ => true
  | .invalidOpcode _ _ => true

/-- A state in which no fatal error has happened. -/
def State.safe (s : State) : Bool :=
  match s.status with
  | .running => true
  | .halted r => !r.fatal

/-- The environment's only law: infinitely many ticks and infinitely many samples (R98; log 4). A claim that needs it takes
it as a hypothesis on the sequence of draws. -/
def FairInputs (draws : Nat → CycleInput) : Prop :=
  (∀ n, ∃ m, n ≤ m ∧ (draws m).tick = true) ∧ (∀ n, ∃ m, n ≤ m ∧ (draws m).sample = true)

end Sys2Proof.Machine
end

