-- ==== Sys2Proof/Certificates/Slice0/Obligations.lean ====
section
/-! DEFINITION. The statements for the provers. A docstring names the rule of spec/ a statement formalises; a statement on a
decision the spec marks as its own, or on a choice of the model, says so. The spec promises nothing of the registers and the
memory after a fatal error, only the halt with its reason and record (R221; decision D11): so the frames are about a next
state that is `safe`, one without a fatal error, and InstructionErrors says when an instruction ends the run. -/

open Sys2Proof Sys2Proof.Machine

/-! ### Encoding -/

/-- Words written out from the encodings of R72 and R74 decode to their instructions. -/
def Obligations.SampleWordsDecode : Prop :=
  decode 0x00E0#16 = .ok .cls ∧ decode 0x00EE#16 = .ok .ret ∧ decode 0x01E0#16 = .ok (.sys 0x1E0#12) ∧
  decode 0x10E0#16 = .ok (.jp 0x0E0#12) ∧ decode 0x5120#16 = .ok (.seVxVy 0x1#4 0x2#4) ∧
  decode 0x81F6#16 = .ok (.shr 0x1#4 0xF#4) ∧ decode 0xD125#16 = .ok (.drw 0x1#4 0x2#4 0x5#4) ∧
  decode 0xE0A1#16 = .ok (.sknp 0x0#4) ∧ decode 0xFF65#16 = .ok (.ldVxMi 0xF#4) ∧
  decode 0x8128#16 = .error (.invalidOpcode 0x8128#16)

/-- The word of every well-formed instruction decodes to it, every operand kept (R72, R74). -/
def Obligations.DecodeOfEncode : Prop := ∀ i : Instr, i.wf = true → decode (encode i) = .ok i

/-- Every word that decodes is the word of the well-formed instruction it decodes to: no bit is dropped, don't-care bits
included (R72, R76). -/
def Obligations.EncodeOfDecode : Prop := ∀ (w : Word) (i : Instr), decode w = .ok i → i.wf = true ∧ encode i = w

/-- The decoder and the opcode table, its rows tested in order, select the same row for every word (R74). -/
def Obligations.DecoderAgreesWithTable : Prop :=
  ∀ w : Word, tableMnemonic w =
    match decode w with
    | .ok i => some i.mnemonic
    | .error _ => none

/-- The invalid words are exactly the five classes of R75. -/
def Obligations.InvalidWordsAreTheFiveClasses : Prop :=
  ∀ w : Word, decode w = .error (.invalidOpcode w) ↔
    ((w.toNat / 4096 = 5 ∧ w.toNat % 16 ≠ 0) ∨
     (w.toNat / 4096 = 8 ∧ w.toNat % 16 ∈ [0x8, 0x9, 0xA, 0xB, 0xC, 0xD, 0xF]) ∨
     (w.toNat / 4096 = 9 ∧ w.toNat % 16 ≠ 0) ∨
     (w.toNat / 4096 = 14 ∧ w.toNat % 256 ∉ [0x9E, 0xA1]) ∨
     (w.toNat / 4096 = 15 ∧ w.toNat % 256 ∉ [0x07, 0x0A, 0x15, 0x18, 0x1E, 0x29, 0x33, 0x55, 0x65]))

/-! ### The dispatch step and the cycle -/

/-- A running machine whose PC is inside the program and whose two bytes at PC decode to `i` steps as `exec i` with PC
advanced by 2, followed by the end of the cycle with the cycle's inputs (R91, R95). -/
def Obligations.StepRunsDecodedInstruction : Prop :=
  ∀ (s : State) (i : Instr), s.status = .running → s.pc.toNat < 0x200 + s.programSize → s.pc.toNat + 1 < 4096 →
    decode (wordOfBytes (s.mem.read s.pc.toNat) (s.mem.read (s.pc.toNat + 1))) = .ok i →
    step s =
      match exec i { s with pc := s.pc + 2#16 } with
      | .next t => .next (t.endCycle s.input)
      | .fault f => .fault f
      | .refused r => .refused r

/-- The word `withFetchWord` places is the word the next step fetches, and nothing stops that fetch (log 5). -/
def Obligations.PlacedWordIsFetched : Prop :=
  ∀ (s : State) (n w : Nat), s.pc.toNat + 1 < 4096 →
    (s.withFetchWord n w).fetch = .ok (BitVec.ofNat 16 w) ∧ (s.withFetchWord n w).status = .running ∧
      (s.withFetchWord n w).pc = s.pc ∧ s.pc.toNat < (s.withFetchWord n w).endAddr

/-- After a dispatch step that left the machine running, in a cycle without a termination key at a sample: a tick lowers DT
and ST by 1 down to 0, a sample makes the latch the keys newly down, a render clears the dirty flag, and everything else is
as the dispatch step left it (R95, R97; decisions D7, D17), but that the cycle's draw is used up, the model's own bookkeeping
of the inputs (log 3). -/
def Obligations.CycleEventsFollowDispatch : Prop :=
  ∀ s t : State, s.status = .running → s.pc.toNat < 0x200 + s.programSize → dispatch s = .next t → t.status = .running →
    ¬(s.input.sample = true ∧ s.input.term = true) →
    ∃ u, step s = .next u ∧
      u.dt.toNat = (if s.input.tick then t.dt.toNat - 1 else t.dt.toNat) ∧
      u.st.toNat = (if s.input.tick then t.st.toNat - 1 else t.st.toNat) ∧
      u.latch = (if s.input.sample then s.input.down &&& ~~~t.prevDown else t.latch) ∧
      u.prevDown = (if s.input.sample then s.input.down else t.prevDown) ∧
      u.dirty = (t.dirty && !s.input.render) ∧
      u = { t with dt := u.dt, st := u.st, latch := u.latch, prevDown := u.prevDown, dirty := u.dirty,
                   inputs := t.inputs.tail, cycle := t.cycle + 1 }

/-- How a run ends within a cycle (R223, R235; decisions D8, D11). A fatal error of the dispatch step is the end of the run
with its own record whatever the inputs of the cycle are: it wins over a termination key. Otherwise a termination key down at
a sample ends the run at that sample: the latch is not recomputed and nothing is rendered; the record is PC after the
dispatch step (R222; decision D20). -/
def Obligations.RunEndsWithinCycle : Prop :=
  ∀ s t : State, s.status = .running → s.pc.toNat < 0x200 + s.programSize → dispatch s = .next t →
    (∀ r, t.status = .halted r → ∃ u, step s = .next u ∧ u.status = .halted r) ∧
    (t.status = .running → s.input.sample = true → s.input.term = true →
      ∃ u, step s = .next u ∧ u.status = .halted (.terminated t.pc) ∧ u.latch = t.latch ∧ u.prevDown = t.prevDown ∧
        u.dirty = t.dirty ∧ u.disp = t.disp)

/-- PC at or beyond END at the start of a cycle ends the run before any fetch (R96; decision D6), and a halted machine has no
further cycle (R39, R95); that the step answers the fault `halted` there is the model's choice (log 1). -/
def Obligations.EndOfProgramAndAfter : Prop :=
  ∀ s : State,
    (s.status = .running → 0x200 + s.programSize ≤ s.pc.toNat →
      step s = .next { s with status := .halted (.programEnd s.pc) }) ∧
    (∀ r, s.status = .halted r → step s = .fault (.halted r))

/-- An invalid word ends the run with its address and the word (R75, R91; decision D20). -/
def Obligations.InvalidWordHalts : Prop :=
  ∀ s : State, s.status = .running → s.pc.toNat < 0x200 + s.programSize → s.pc.toNat + 1 < 4096 →
    (∃ e, decode (wordOfBytes (s.mem.read s.pc.toNat) (s.mem.read (s.pc.toNat + 1))) = .error e) →
    ∃ t, step s = .next t ∧
      t.status = .halted (.invalidOpcode s.pc (wordOfBytes (s.mem.read s.pc.toNat) (s.mem.read (s.pc.toNat + 1))))

/-- In a run, a fetch fails only at PC = 0xFFF with END = 0x1000, and the address recorded is 0x1000 (R58, R96). -/
def Obligations.FetchFailsOnlyAtLastByte : Prop :=
  ∀ s : State, s.Inv → s.status = .running → s.pc.toNat < 0x200 + s.programSize →
    (s.pc.toNat < 0xFFF → ∃ w, s.fetch = .ok w) ∧
    (0xFFF ≤ s.pc.toNat → s.pc = 0xFFF#16 ∧ 0x200 + s.programSize = 0x1000 ∧
      ∃ t, step s = .next t ∧ t.status = .halted (.outOfBounds 0xFFF#16 0x1000))

/-- Only a render clears the dirty flag (R35, R243). -/
def Obligations.DirtyClearedOnlyByRender : Prop :=
  ∀ s t : State, step s = .next t → t.safe = true → s.dirty = true → t.dirty = false → s.input.render = true

/-- A word read is big-endian, and it fails exactly from 0xFFF on (R55, R58; the recorded address is decision D20). -/
def Obligations.WordReadIsBigEndian : Prop :=
  ∀ (s : State) (a : Nat),
    (a + 1 < 4096 → ∃ w, s.memReadWord a = .ok w ∧
      w.toNat = (s.mem.read a).toNat * 256 + (s.mem.read (a + 1)).toNat) ∧
    (4096 ≤ a + 1 → s.memReadWord a = .error (max a 4096))

/-- `MemRead(addr, 1)` and `MemWrite(addr, 1, v)`: below 4096 a read gives the byte, a write is read back, and every other
byte and everything else is unchanged; at 4096 or above both fail with the address (R56, R57). -/
def Obligations.ByteAccess : Prop :=
  ∀ (s : State) (a : Nat) (b : Byte),
    (a < 4096 → s.memRead a = .ok (s.mem.read a) ∧
      ∃ t, s.memWrite a b = .ok t ∧ t = { s with mem := t.mem } ∧ t.memRead a = .ok b ∧
        ∀ c, c ≠ a → t.memRead c = s.memRead c) ∧
    (4096 ≤ a → s.memRead a = .error a ∧ s.memWrite a b = .error a)

/-! ### The tick and the sample -/

/-- The timer tick lowers each timer that is not 0 by 1 (R230). -/
def Obligations.TickLowersTimers : Prop :=
  ∀ s : State,
    (s.dt ≠ 0#8 → s.timerTick.dt.toNat + 1 = s.dt.toNat) ∧ (s.dt = 0#8 → s.timerTick.dt = 0#8) ∧
    (s.st ≠ 0#8 → s.timerTick.st.toNat + 1 = s.st.toNat) ∧ (s.st = 0#8 → s.timerTick.st = 0#8)

/-- The sample makes the latch the keys down now and not at the previous sample, and remembers the keys down; with the
termination key down it ends the run instead (R233), and that it then leaves the latch and the remembered keys is the spec's
decision D8 (R235; log 16). -/
def Obligations.SampleLatchesNewKeys : Prop :=
  ∀ (s : State) (down : KeySet),
    ((∀ k, (s.inputSample down false).latch.getLsbD k = (down.getLsbD k && !s.prevDown.getLsbD k)) ∧
      (s.inputSample down false).prevDown = down) ∧
    ((∃ a, (s.inputSample down true).status = .halted (.terminated a)) ∧
      (s.inputSample down true).latch = s.latch ∧ (s.inputSample down true).prevDown = s.prevDown)

/-- A key held over two samples is not latched by the second, and a key up at the first and down at the second is (R234). -/
def Obligations.HeldKeyIsLatchedOnce : Prop :=
  ∀ (s : State) (d1 d2 : KeySet) (k : Nat), k < 16 →
    (((s.inputSample d1 false).inputSample d2 false).latch.getLsbD k = true ↔
      d1.getLsbD k = false ∧ d2.getLsbD k = true)

/-! ### Invariants -/

/-- Memory stays canonical, SP stays in 0..16, PC never passes 0x10FE, the return addresses in use stay at most 0x1000 and
the program size stays legal: every step keeps them (R25, R26, R40). Of a step that ends in a fatal error this says only how
the model writes such a state down (log 2). -/
def Obligations.StepKeepsInvariant : Prop := ∀ s t : State, s.Inv → step s = .next t → t.Inv

/-- The invariant holds right after initialisation with nothing loaded (R41; the empty ROM of reset is log 5). -/
def Obligations.ResetMeetsInvariant : Prop := State.reset.Inv

/-- The invariant holds after every initialisation with a ROM that fits, whatever the launch parameters (R260, R262). -/
def Obligations.InitialiseMeetsInvariant : Prop :=
  ∀ (p : LaunchParams) (rom : List Byte), rom.length ≤ 3584 → (State.initialise p rom).Inv

/-! ### Frames, for every instruction -/

/-- An instruction changes a general register only if it names it as its destination or the register is VF and the
instruction writes the flag (R12, R21; decision D1). -/
def Obligations.RegisterFrame : Prop :=
  ∀ (i : Instr) (s t : State) (r : Nibble), exec i s = .next t → t.safe = true → namesDest r i = false →
    ¬(flagWriter i = true ∧ r = vf) → t.getV r = s.getV r

/-- An instruction that transfers no control leaves PC as the dispatch step advanced it (R25). -/
def Obligations.ProgramCounterFrame : Prop :=
  ∀ (i : Instr) (s t : State), exec i s = .next t → t.safe = true → transfersControl i = false → t.pc = s.pc

/-- Every byte outside the bytes an instruction stores at I reads as before; only `Fx33` and `Fx55` store any (R51; decision
D1). -/
def Obligations.MemoryFrame : Prop :=
  ∀ (i : Instr) (s t : State), exec i s = .next t → t.safe = true →
    ∀ a, ¬(s.effAddr 0 ≤ a ∧ a < s.effAddr 0 + bytesStored i) → t.mem.read a = s.mem.read a

/-- Only `2nnn` and `00EE` touch SP and the stack (R29), and only `00E0` and `Dxyn` write the display and its dirty flag
(R34, R35). -/
def Obligations.StackAndDisplayFrame : Prop :=
  ∀ (i : Instr) (s t : State), exec i s = .next t → t.safe = true →
    ((∀ nnn, i ≠ .call nnn) → i ≠ .ret → t.sp = s.sp ∧ t.stack = s.stack) ∧
    (i ≠ .cls → (∀ x y n, i ≠ .drw x y n) → t.disp = s.disp ∧ t.dirty = s.dirty)

/-- I is written only by `Annn`, `Fx1E` and `Fx29`, DT only by `Fx15`, ST only by `Fx18` and the PRNG's state only by `Cxkk`
(R22, R30, R38; decision D1). -/
def Obligations.SpecialRegisterFrame : Prop :=
  ∀ (i : Instr) (s t : State), exec i s = .next t → t.safe = true →
    (writesIndex i = false → t.i = s.i) ∧ ((∀ x, i ≠ .ldDtVx x) → t.dt = s.dt) ∧
    ((∀ x, i ≠ .ldStVx x) → t.st = s.st) ∧ ((∀ x kk, i ≠ .rnd x kk) → t.rngState = s.rngState)

/-- No instruction writes the latch, the keys of the previous sample, the constants of the run or the environment's draws
(R36, R37, R38, R40), and no step writes the constants of the run: the program size, the PRNG's increment and the shift-flag
mode (R38, R40, R42). -/
def Obligations.ConstantAndInputFrame : Prop :=
  (∀ (i : Instr) (s t : State), exec i s = .next t → t.safe = true →
    t.latch = s.latch ∧ t.prevDown = s.prevDown ∧ t.rngInc = s.rngInc ∧ t.programSize = s.programSize ∧
    t.shlFlagMode = s.shlFlagMode ∧ t.inputs = s.inputs ∧ t.cycle = s.cycle) ∧
  (∀ s t : State, step s = .next t → t.safe = true →
    t.programSize = s.programSize ∧ t.rngInc = s.rngInc ∧ t.shlFlagMode = s.shlFlagMode)

/-- An instruction ends the run only by a stack overflow of `2nnn`, a stack underflow of `00EE`, or an access at I that
passes the end of memory (R220; the records are decision D20). -/
def Obligations.InstructionErrors : Prop :=
  ∀ (i : Instr) (s t : State), exec i s = .next t →
    t.status = s.status ∨
    (∃ nnn, i = .call nnn ∧ 16 ≤ s.sp ∧ t.status = .halted (.stackOverflow (s.pc - 2#16))) ∨
    (i = .ret ∧ s.sp = 0 ∧ t.status = .halted (.stackUnderflow (s.pc - 2#16))) ∨
    (bytesAtI i ≠ 0 ∧ 4096 < s.i.toNat + bytesAtI i ∧
      t.status = .halted (.outOfBounds (s.pc - 2#16) (max s.i.toNat 4096)))

/-- No instruction reads ST: with another value of ST it ends or goes on as it would, and it does the same to everything
else (R30). -/
def Obligations.SoundTimerIsNeverRead : Prop :=
  ∀ (i : Instr) (s t : State) (b : Byte), exec i s = .next t →
    ∃ u, exec i { s with st := b } = .next u ∧ u.status = t.status ∧
      (t.safe = true → { u with st := 0#8 } = { t with st := 0#8 })

/-! ### Control transfer -/

/-- `00EE` returns to the top entry, or ends the run on an empty stack (R28, R110). -/
def Obligations.ReturnPopsStack : Prop :=
  ∀ s : State,
    (∀ k (h : k < 16), s.sp = k + 1 → ∃ t, exec .ret s = .next t ∧ t.pc = s.stack[k] ∧ t.sp = k ∧ t.stack = s.stack) ∧
    (s.sp = 0 → ∃ t a, exec .ret s = .next t ∧ t.status = .halted (.stackUnderflow a))

/-- `2nnn` pushes the advanced PC and jumps, or ends the run with all 16 entries in use (R27, R113). -/
def Obligations.CallPushesReturnAddress : Prop :=
  ∀ (s : State) (nnn : Addr),
    (∀ h : s.sp < 16, ∃ t, exec (.call nnn) s = .next t ∧ t.pc.toNat = nnn.toNat ∧ t.sp = s.sp + 1 ∧
      t.stack[s.sp] = s.pc ∧ ∀ k (hk : k < 16), k ≠ s.sp → t.stack[k] = s.stack[k]) ∧
    (s.sp = 16 → ∃ t a, exec (.call nnn) s = .next t ∧ t.status = .halted (.stackOverflow a))

/-- A call and the return that ends its subroutine are inverse on SP and PC, whatever the subroutine did to the rest, as long
as it left SP and its own return address alone (R119). -/
def Obligations.CallAndReturnAreInverse : Prop :=
  ∀ (s t u : State) (nnn : Addr) (hsp : s.sp < 16), exec (.call nnn) s = .next t → u.sp = t.sp →
    u.stack[s.sp] = t.stack[s.sp] → ∃ v, exec .ret u = .next v ∧ v.sp = s.sp ∧ v.pc = s.pc

/-- `1nnn` loads PC with nnn and `Annn` loads I with nnn; neither has a flag or an error (R112, R160). -/
def Obligations.AddressLoads : Prop :=
  ∀ (s : State) (nnn : Addr),
    (∃ t, exec (.jp nnn) s = .next t ∧ t.pc.toNat = nnn.toNat ∧ noFlagNoError s t) ∧
    (∃ t, exec (.ldINnn nnn) s = .next t ∧ t.i.toNat = nnn.toNat ∧ noFlagNoError s t)

/-- `0nnn` is a plain jump that pushes nothing (R111; the source's own choice, decision D14), and `Bnnn` jumps to the exact
sum of nnn and V0 (R118; decision D5). -/
def Obligations.SysAndOffsetJump : Prop :=
  ∀ (s : State) (nnn : Addr),
    (∃ t, exec (.sys nnn) s = .next t ∧ t.pc.toNat = nnn.toNat ∧ onlyPc s t) ∧
    (∃ t, exec (.jpV0 nnn) s = .next t ∧ t.pc.toNat = nnn.toNat + (s.getV 0x0#4).toNat ∧ onlyPc s t)

/-- The four comparing skips add 2 to the advanced PC when their test holds and leave it otherwise, without a flag or an
error (R114 to R117). -/
def Obligations.ComparingSkips : Prop :=
  ∀ (s : State) (x y : Nibble) (kk : Byte),
    (∃ t, exec (.seVxKk x kk) s = .next t ∧ noFlagNoError s t ∧
      t.pc = if s.getV x = kk then s.pc + 2#16 else s.pc) ∧
    (∃ t, exec (.sneVxKk x kk) s = .next t ∧ noFlagNoError s t ∧
      t.pc = if s.getV x ≠ kk then s.pc + 2#16 else s.pc) ∧
    (∃ t, exec (.seVxVy x y) s = .next t ∧ noFlagNoError s t ∧
      t.pc = if s.getV x = s.getV y then s.pc + 2#16 else s.pc) ∧
    (∃ t, exec (.sneVxVy x y) s = .next t ∧ noFlagNoError s t ∧
      t.pc = if s.getV x ≠ s.getV y then s.pc + 2#16 else s.pc)

/-- The key skips test membership of the key that Vx names; a value above 15 names no key, so `Ex9E` never skips and `ExA1`
always does (R200, R201, R206; decision D9). -/
def Obligations.KeySkips : Prop :=
  ∀ (s : State) (x : Nibble),
    (∃ t, exec (.skp x) s = .next t ∧ onlyPc s t ∧
      t.pc = if (s.getV x).toNat < 16 ∧ s.latch.getLsbD (s.getV x).toNat = true then s.pc + 2#16 else s.pc) ∧
    (∃ t, exec (.sknp x) s = .next t ∧ onlyPc s t ∧
      t.pc = if (s.getV x).toNat < 16 ∧ s.latch.getLsbD (s.getV x).toNat = true then s.pc else s.pc + 2#16)

/-! ### Loads, arithmetic and the random byte -/

/-- `6xkk` loads the byte, `7xkk` adds it modulo 256 and writes VF only as its destination, `8xy0` copies (R130, R131,
R132). -/
def Obligations.LoadsAndAddImmediate : Prop :=
  ∀ (s : State) (x y : Nibble) (kk : Byte),
    (∃ t, exec (.ldVxKk x kk) s = .next t ∧ t.getV x = kk ∧ (x ≠ vf → t.getV vf = s.getV vf)) ∧
    (∃ t, exec (.addVxKk x kk) s = .next t ∧ (t.getV x).toNat = ((s.getV x).toNat + kk.toNat) % 256 ∧
      (x ≠ vf → t.getV vf = s.getV vf)) ∧
    (∃ t, exec (.ldVxVy x y) s = .next t ∧ t.getV x = s.getV y ∧ (x ≠ vf → t.getV vf = s.getV vf))

/-- The logic instructions combine Vx and Vy bit by bit and change nothing but Vx, VF included (R133, R134, R135; decision
D1). -/
def Obligations.LogicResults : Prop :=
  ∀ (s : State) (x y : Nibble),
    (∃ t, exec (.or x y) s = .next t ∧ onlyV s t ∧ otherRegs (· = x) s t ∧
      ∀ k, (t.getV x).getLsbD k = ((s.getV x).getLsbD k || (s.getV y).getLsbD k)) ∧
    (∃ t, exec (.and x y) s = .next t ∧ onlyV s t ∧ otherRegs (· = x) s t ∧
      ∀ k, (t.getV x).getLsbD k = ((s.getV x).getLsbD k && (s.getV y).getLsbD k)) ∧
    (∃ t, exec (.xor x y) s = .next t ∧ onlyV s t ∧ otherRegs (· = x) s t ∧
      ∀ k, (t.getV x).getLsbD k = ((s.getV x).getLsbD k ^^ (s.getV y).getLsbD k))

/-- `8xy4`: Vx is the sum modulo 256 and VF is 1 when the exact sum exceeds 255; with x = F the sum overwrites the flag, with
y = F the old VF is in the sum (R139). -/
def Obligations.AddWithCarry : Prop :=
  ∀ (s : State) (x y : Nibble), ∃ t, exec (.addVxVy x y) s = .next t ∧
    (t.getV x).toNat = ((s.getV x).toNat + (s.getV y).toNat) % 256 ∧
    (x ≠ vf → (t.getV vf).toNat = if (s.getV x).toNat + (s.getV y).toNat > 255 then 1 else 0)

/-- `8xy5` and `8xy7` with neither operand VF: the difference modulo 256, and VF is 1 when there is no borrow, equality
included (R140, R142). The forms with VF as an operand are VfOperandOfAddAndSub. -/
def Obligations.SubtractWithNoBorrow : Prop :=
  ∀ (s : State) (x y : Nibble), x ≠ vf → y ≠ vf →
    (∃ t, exec (.sub x y) s = .next t ∧ onlyV s t ∧ otherRegs (fun r => r = x ∨ r = vf) s t ∧
      (t.getV x).toNat = ((s.getV x).toNat + 256 - (s.getV y).toNat) % 256 ∧
      (t.getV vf).toNat = if (s.getV x).toNat ≥ (s.getV y).toNat then 1 else 0) ∧
    (∃ t, exec (.subn x y) s = .next t ∧ onlyV s t ∧ otherRegs (fun r => r = x ∨ r = vf) s t ∧
      (t.getV x).toNat = ((s.getV y).toNat + 256 - (s.getV x).toNat) % 256 ∧
      (t.getV vf).toNat = if (s.getV y).toNat ≥ (s.getV x).toNat then 1 else 0)

/-- `8xy6` and `8xyE`: a logical shift by one whatever y is, and VF the bit shifted out; with `LegacyZero` the left shift's
VF is 0 (R141, R143; decision D13). With x = F the shifted flag is what is left in VF (R137; decision D2). -/
def Obligations.ShiftByOne : Prop :=
  ∀ (s : State) (x y : Nibble),
    (x ≠ vf →
      (∃ t, exec (.shr x y) s = .next t ∧ onlyV s t ∧ otherRegs (fun r => r = x ∨ r = vf) s t ∧
        (t.getV x).toNat = (s.getV x).toNat / 2 ∧ (t.getV vf).toNat = (s.getV x).toNat % 2) ∧
      (∃ t, exec (.shl x y) s = .next t ∧ onlyV s t ∧ otherRegs (fun r => r = x ∨ r = vf) s t ∧
        (t.getV x).toNat = (s.getV x).toNat * 2 % 256 ∧
        (t.getV vf).toNat =
          match s.shlFlagMode with
          | .topBit => (s.getV x).toNat / 128
          | .legacyZero => 0)) ∧
    (∃ t, exec (.shr vf y) s = .next t ∧ onlyV s t ∧ otherRegs (· = vf) s t ∧ t.getV vf = 0#8) ∧
    (∃ t, exec (.shl vf y) s = .next t ∧ onlyV s t ∧ otherRegs (· = vf) s t ∧
      (t.getV vf).toNat =
        match s.shlFlagMode with
        | .topBit => 2 * ((s.getV vf).toNat / 128)
        | .legacyZero => 0)

/-- VF as an operand of `8xy4`, `8xy5` and `8xy7`: the table of R137, which is the spec's decision D2. -/
def Obligations.VfOperandOfAddAndSub : Prop :=
  ∀ (s : State) (x y : Nibble), x ≠ vf → y ≠ vf →
    let a := (s.getV x).toNat
    let b := (s.getV y).toNat
    let f := (s.getV vf).toNat
    (∃ t, exec (.addVxVy vf y) s = .next t ∧ (t.getV vf).toNat = (f + b) % 256) ∧
    (∃ t, exec (.addVxVy x vf) s = .next t ∧ (t.getV x).toNat = (a + f) % 256 ∧
      (t.getV vf).toNat = (decide (a + f > 255)).toNat) ∧
    (∃ t, exec (.addVxVy vf vf) s = .next t ∧ (t.getV vf).toNat = 2 * f % 256) ∧
    (∃ t, exec (.sub vf y) s = .next t ∧ (t.getV vf).toNat = ((decide (f ≥ b)).toNat + 256 - b) % 256) ∧
    (∃ t, exec (.sub x vf) s = .next t ∧ (t.getV x).toNat = (a + 256 - (decide (a ≥ f)).toNat) % 256 ∧
      (t.getV vf).toNat = (decide (a ≥ f)).toNat) ∧
    (∃ t, exec (.sub vf vf) s = .next t ∧ (t.getV vf).toNat = 0) ∧
    (∃ t, exec (.subn vf y) s = .next t ∧ (t.getV vf).toNat = (b + 256 - (decide (b ≥ f)).toNat) % 256) ∧
    (∃ t, exec (.subn x vf) s = .next t ∧ (t.getV x).toNat = ((decide (f ≥ a)).toNat + 256 - a) % 256 ∧
      (t.getV vf).toNat = (decide (f ≥ a)).toNat) ∧
    (∃ t, exec (.subn vf vf) s = .next t ∧ (t.getV vf).toNat = 0)

/-- `Cxkk`: Vx is the low byte of the output transform of the old PRNG state, masked by kk, and the state advances by one
step modulo 2^64 whatever kk is (R144, R150). -/
def Obligations.RandomByteMasked : Prop :=
  ∀ (s : State) (x : Nibble) (kk : Byte), ∃ t, exec (.rnd x kk) s = .next t ∧
    (t.getV x).toNat = (xshRr s.rngState).toNat % 256 &&& kk.toNat ∧
    t.rngState.toNat = (s.rngState.toNat * 6364136223846793005 + (s.rngInc.toNat ||| 1)) % 2 ^ 64

/-- The output transform is a rotation to the right of the xorshifted word by the old state's top 5 bits (R151, which the
spec takes from general knowledge, log 9). -/
def Obligations.OutputTransformRotates : Prop :=
  ∀ old : BitVec 64,
    xshRr old = ((((old >>> 18) ^^^ old) >>> 27).setWidth 32 : BitVec 32).rotateRight (old.toNat / 2 ^ 59)

/-! ### Index register and memory transfers -/

/-- `Fx1E` adds Vx to I modulo 2^16 without a flag, and `Fx29` points I at 0x050 + 5 * Vx, Vx taken whole (R161, R162;
decision D3). -/
def Obligations.IndexArithmetic : Prop :=
  ∀ (s : State) (x : Nibble),
    (∃ t, exec (.addIVx x) s = .next t ∧ t.i.toNat = (s.i.toNat + (s.getV x).toNat) % 65536 ∧ onlyI s t) ∧
    (∃ t, exec (.ldFVx x) s = .next t ∧ t.i.toNat = 0x050 + 5 * (s.getV x).toNat ∧ onlyI s t)

/-- `Fx33` with its three bytes in memory stores the decimal digits of Vx at I, I + 1 and I + 2 and no other byte (R163). -/
def Obligations.DecimalDigitsStored : Prop :=
  ∀ (s : State) (x : Nibble), s.effAddr 0 + 3 ≤ 4096 →
    ∃ t, exec (.ldBVx x) s = .next t ∧ onlyMemory s t ∧ otherBytes (s.effAddr 0) 3 s t ∧
      (t.mem.read s.i.toNat).toNat = (s.getV x).toNat / 100 ∧
      (t.mem.read (s.i.toNat + 1)).toNat = (s.getV x).toNat / 10 % 10 ∧
      (t.mem.read (s.i.toNat + 2)).toNat = (s.getV x).toNat % 10

/-- `Fx55` with all its bytes in memory stores V0 to Vx at I onwards and changes nothing else, I included (R164; decision
D1). -/
def Obligations.RegistersStored : Prop :=
  ∀ (s : State) (x : Nibble), s.effAddr 0 + (x.toNat + 1) ≤ 4096 →
    ∃ t, exec (.ldMiVx x) s = .next t ∧ onlyMemory s t ∧ otherBytes (s.effAddr 0) (x.toNat + 1) s t ∧
      ∀ r : Nibble, r.toNat ≤ x.toNat → t.mem.read (s.i.toNat + r.toNat) = s.getV r

/-- `Fx65` with all its bytes in memory loads V0 to Vx from I onwards and changes nothing else, I included (R165; decision
D1). -/
def Obligations.RegistersLoaded : Prop :=
  ∀ (s : State) (x : Nibble), s.effAddr 0 + (x.toNat + 1) ≤ 4096 →
    ∃ t, exec (.ldVxMi x) s = .next t ∧ onlyV s t ∧
      ∀ r : Nibble, t.getV r = if r.toNat ≤ x.toNat then s.mem.read (s.i.toNat + r.toNat) else s.getV r

/-- An access at I that passes the end of memory ends the run with the first address at or above 4096 (R60, R61; decisions
D4, D20). -/
def Obligations.AccessPastMemoryHalts : Prop :=
  ∀ (i : Instr) (s : State), bytesAtI i ≠ 0 → 4096 < s.i.toNat + bytesAtI i →
    ∃ t, exec i s = .next t ∧ t.status = .halted (.outOfBounds (s.pc - 2#16) (max s.i.toNat 4096))

/-- Whatever `Fx33` or `Fx55` stores inside memory, the next fetch after its cycle, at the advanced PC, reads its high byte at
PC and its low byte at PC + 1: the stored byte where the store reaches, the old one elsewhere (R65). -/
def Obligations.StoredWordIsFetched : Prop :=
  ∀ (s : State) (x : Nibble) (inp : CycleInput), s.pc.toNat + 1 < 4096 →
    let after := fun (stored : Nat → Byte) (n a : Nat) =>
      if s.i.toNat ≤ a ∧ a < s.i.toNat + n then stored (a - s.i.toNat) else s.mem.read a
    let digit := fun j : Nat => BitVec.ofNat 8 ((s.getV x).toNat / 10 ^ (2 - j) % 10)
    let reg := fun j : Nat => s.getV (BitVec.ofNat 4 j)
    (s.effAddr 0 + 3 ≤ 4096 → ∃ t, exec (.ldBVx x) s = .next t ∧ t.pc = s.pc ∧
      (t.endCycle inp).fetch = .ok (wordOfBytes (after digit 3 s.pc.toNat) (after digit 3 (s.pc.toNat + 1)))) ∧
    (s.effAddr 0 + (x.toNat + 1) ≤ 4096 → ∃ t, exec (.ldMiVx x) s = .next t ∧ t.pc = s.pc ∧
      (t.endCycle inp).fetch =
        .ok (wordOfBytes (after reg (x.toNat + 1) s.pc.toNat) (after reg (x.toNat + 1) (s.pc.toNat + 1))))

/-! ### Display -/

/-- `00E0` makes every pixel 0 whatever the display was, sets the dirty flag and leaves VF (R180). -/
def Obligations.ClearMakesEveryPixelZero : Prop :=
  ∀ s : State, ∃ t, exec .cls s = .next t ∧ (∀ r c, t.disp.pixel r c = false) ∧ t.dirty = true ∧
    noFlagNoError s t

/-- `Dxyn` with its rows in memory (always so for n = 0, whatever I is) XORs the sprite at I onto the display at (Vx, Vy)
with both coordinates wrapping, sets the dirty flag, sets VF to whether some pixel was 1 under a set sprite bit, and changes
nothing else (R181 to R185, R187; decision D10). -/
def Obligations.DrawXorsSprite : Prop :=
  ∀ (s : State) (x y n : Nibble), n.toNat = 0 ∨ s.effAddr 0 + n.toNat ≤ 4096 →
    let covers := spriteCovers (s.getV x).toNat (s.getV y).toNat (spriteAtI s n)
    ∃ t, exec (.drw x y n) s = .next t ∧
      (∀ r c, covers r c → t.disp.pixel r c = !s.disp.pixel r c) ∧
      (∀ r c, ¬covers r c → t.disp.pixel r c = s.disp.pixel r c) ∧
      t.dirty = true ∧
      ((∃ r c, covers r c ∧ s.disp.pixel r c = true) → t.getV vf = 1#8) ∧
      ((¬∃ r c, covers r c ∧ s.disp.pixel r c = true) → t.getV vf = 0#8) ∧
      otherRegs (· = vf) s t ∧ t = { s with v := t.v, disp := t.disp, dirty := true }

/-- Drawing the same sprite twice at the same place restores the display, and the second draw reports a collision exactly
when the sprite had a set bit on a pixel that was 0 before the first. The exact condition follows from the collision rule
(R181, R183); R182's corner case, VF = 1 if the sprite has any set bit, is its case of a display that was 0 under the sprite
(log 28). The place is the same unless a coordinate is VF and the first draw changed VF (decision D10). -/
def Obligations.DrawTwiceRestoresDisplay : Prop :=
  ∀ (s t : State) (x y n : Nibble), (n.toNat = 0 ∨ s.effAddr 0 + n.toNat ≤ 4096) → exec (.drw x y n) s = .next t →
    (x = vf ∨ y = vf → t.getV vf = s.getV vf) →
    ∃ u, exec (.drw x y n) t = .next u ∧ u.disp = s.disp ∧
      (u.getV vf = 1#8 ↔
        ∃ r c, spriteCovers (s.getV x).toNat (s.getV y).toNat (spriteAtI s n) r c ∧ s.disp.pixel r c = false)

/-! ### Timers and input -/

/-- `Fx07` reads DT, writing VF only as its destination; `Fx15` sets DT and `Fx18` sets ST; none of them has an error (R202,
R204, R205). -/
def Obligations.TimerTransfers : Prop :=
  ∀ (s : State) (x : Nibble),
    (∃ t, exec (.ldVxDt x) s = .next t ∧ t.getV x = s.dt ∧ (x ≠ vf → t.getV vf = s.getV vf) ∧ t.status = s.status) ∧
    (∃ t, exec (.ldDtVx x) s = .next t ∧ t.dt = s.getV x ∧ noFlagNoError s t) ∧
    (∃ t, exec (.ldStVx x) s = .next t ∧ t.st = s.getV x ∧ noFlagNoError s t)

/-- `Fx0A` with an empty latch rolls PC back by 2 and does nothing else; with a key latched it stores the lowest-numbered one
and leaves PC advanced and the latch as it is, writing VF only as its destination (R203). -/
def Obligations.KeyWait : Prop :=
  ∀ (s : State) (x : Nibble),
    (s.latch = 0#16 → exec (.ldVxK x) s = .next { s with pc := s.pc - 2#16 }) ∧
    (∀ k, s.latch.getLsbD k = true → (∀ j, j < k → s.latch.getLsbD j = false) →
      ∃ t, exec (.ldVxK x) s = .next t ∧ (t.getV x).toNat = k ∧ t.pc = s.pc ∧ t.latch = s.latch ∧
        (x ≠ vf → t.getV vf = s.getV vf) ∧ t.status = s.status)

/-- A cycle that waits in `Fx0A` is a whole cycle (R203, R239): PC stays at the instruction, a tick counts DT and ST down to
0, and the run goes on unless a sample sees the termination key, which ends it with that PC as the record (R235; decisions
D8, D20). Nothing else changes but what the sample and the render name, and the model's own draws (log 3). -/
def Obligations.WaitingCycleKeepsRunning : Prop :=
  ∀ (s : State) (x : Nibble), s.status = .running → s.pc.toNat < 0x200 + s.programSize → s.pc.toNat + 1 < 4096 →
    decode (wordOfBytes (s.mem.read s.pc.toNat) (s.mem.read (s.pc.toNat + 1))) = .ok (.ldVxK x) → s.latch = 0#16 →
    ∃ t, step s = .next t ∧ t.pc = s.pc ∧
      t.dt.toNat = (if s.input.tick then s.dt.toNat - 1 else s.dt.toNat) ∧
      t.st.toNat = (if s.input.tick then s.st.toNat - 1 else s.st.toNat) ∧
      t.status = (if s.input.sample = true ∧ s.input.term = true then .halted (.terminated s.pc) else .running) ∧
      t = { s with dt := t.dt, st := t.st, latch := t.latch, prevDown := t.prevDown, dirty := t.dirty,
                   status := t.status, inputs := t.inputs, cycle := t.cycle }

/-! ### Initialisation -/

/-- After an initialisation with a ROM that fits, memory is the font, the ROM at 0x200 and zeros. A longer ROM ends the run
before any cycle with its length recorded, and none of it is written (R53, R260, R262; the halt is decision D19). -/
def Obligations.InitialMemoryMap : Prop :=
  ∀ (p : LaunchParams) (rom : List Byte) (a : Nat),
    (rom.length ≤ 3584 → (State.initialise p rom).mem.read a =
      if 0x200 ≤ a ∧ a < 0x200 + rom.length then rom.getD (a - 0x200) 0#8
      else if 0x050 ≤ a ∧ a < 0x0A0 then p.font.toList.getD (a - 0x050) 0#8
      else 0#8) ∧
    (3584 < rom.length → (State.initialise p rom).status = .halted (.outOfSpace rom.length) ∧
      (State.initialise p rom).mem.read a =
        if 0x050 ≤ a ∧ a < 0x0A0 then p.font.toList.getD (a - 0x050) 0#8 else 0#8)

/-- After an initialisation with a ROM that fits, PC is 0x200, the registers, I, SP, the stack, the timers and the display
are 0, the PRNG has its seed and the program size is the ROM's length (R41); that the dirty flag and the keys are 0 and the
status running is the spec's decision D16. That State holds the launch's shift-flag mode (R7) is the model's choice
(log 8). -/
def Obligations.InitialRegisters : Prop :=
  ∀ (p : LaunchParams) (rom : List Byte), rom.length ≤ 3584 →
    let s := State.initialise p rom
    s.pc = 0x200#16 ∧ (∀ r, s.getV r = 0#8) ∧ s.i = 0#16 ∧ s.sp = 0 ∧ (∀ k (h : k < 16), s.stack[k] = 0#16) ∧
      s.dt = 0#8 ∧ s.st = 0#8 ∧ (∀ r c, s.disp.pixel r c = false) ∧ s.rngState = p.rngState ∧ s.rngInc = p.rngInc ∧
      s.programSize = rom.length ∧ s.shlFlagMode = p.shlFlagMode ∧ s.dirty = false ∧ s.latch = 0#16 ∧
      s.prevDown = 0#16 ∧ s.status = .running

/-- The machine's reset state is the initialisation with the default parameters and a ROM of 0 bytes (log 5). -/
def Obligations.ResetIsEmptyInitialisation : Prop := State.initialise defaultLaunch [] = State.reset
end

