-- ==== Sys2Proof/Laws/State.lean ====
section
/-! SUPPORT. One lemma per field per update of State: what the named updates leave and write. -/

namespace Sys2Proof.Machine

variable (s : State)

@[simp] theorem State.setByte_mem (a : Nat) (b : Byte) : (s.setByte a b).mem = s.mem.write a b := rfl
@[simp] theorem State.setByte_v (a : Nat) (b : Byte) : (s.setByte a b).v = s.v := rfl
@[simp] theorem State.setByte_i (a : Nat) (b : Byte) : (s.setByte a b).i = s.i := rfl
@[simp] theorem State.setByte_pc (a : Nat) (b : Byte) : (s.setByte a b).pc = s.pc := rfl
@[simp] theorem State.setByte_sp (a : Nat) (b : Byte) : (s.setByte a b).sp = s.sp := rfl
@[simp] theorem State.setByte_stack (a : Nat) (b : Byte) : (s.setByte a b).stack = s.stack := rfl
@[simp] theorem State.setByte_dt (a : Nat) (b : Byte) : (s.setByte a b).dt = s.dt := rfl
@[simp] theorem State.setByte_st (a : Nat) (b : Byte) : (s.setByte a b).st = s.st := rfl
@[simp] theorem State.setByte_disp (a : Nat) (b : Byte) : (s.setByte a b).disp = s.disp := rfl
@[simp] theorem State.setByte_dirty (a : Nat) (b : Byte) : (s.setByte a b).dirty = s.dirty := rfl
@[simp] theorem State.setByte_latch (a : Nat) (b : Byte) : (s.setByte a b).latch = s.latch := rfl
@[simp] theorem State.setByte_prevDown (a : Nat) (b : Byte) : (s.setByte a b).prevDown = s.prevDown := rfl
@[simp] theorem State.setByte_rngState (a : Nat) (b : Byte) : (s.setByte a b).rngState = s.rngState := rfl
@[simp] theorem State.setByte_rngInc (a : Nat) (b : Byte) : (s.setByte a b).rngInc = s.rngInc := rfl
@[simp] theorem State.setByte_programSize (a : Nat) (b : Byte) : (s.setByte a b).programSize = s.programSize := rfl
@[simp] theorem State.setByte_status (a : Nat) (b : Byte) : (s.setByte a b).status = s.status := rfl
@[simp] theorem State.setByte_shlFlagMode (a : Nat) (b : Byte) : (s.setByte a b).shlFlagMode = s.shlFlagMode := rfl
@[simp] theorem State.setByte_inputs (a : Nat) (b : Byte) : (s.setByte a b).inputs = s.inputs := rfl
@[simp] theorem State.setByte_cycle (a : Nat) (b : Byte) : (s.setByte a b).cycle = s.cycle := rfl

@[simp] theorem State.setV_mem (x : Nibble) (b : Byte) : (s.setV x b).mem = s.mem := rfl
@[simp] theorem State.setV_v (x : Nibble) (b : Byte) : (s.setV x b).v = s.v.set x.toNat b x.isLt := rfl
@[simp] theorem State.setV_i (x : Nibble) (b : Byte) : (s.setV x b).i = s.i := rfl
@[simp] theorem State.setV_pc (x : Nibble) (b : Byte) : (s.setV x b).pc = s.pc := rfl
@[simp] theorem State.setV_sp (x : Nibble) (b : Byte) : (s.setV x b).sp = s.sp := rfl
@[simp] theorem State.setV_stack (x : Nibble) (b : Byte) : (s.setV x b).stack = s.stack := rfl
@[simp] theorem State.setV_dt (x : Nibble) (b : Byte) : (s.setV x b).dt = s.dt := rfl
@[simp] theorem State.setV_st (x : Nibble) (b : Byte) : (s.setV x b).st = s.st := rfl
@[simp] theorem State.setV_disp (x : Nibble) (b : Byte) : (s.setV x b).disp = s.disp := rfl
@[simp] theorem State.setV_dirty (x : Nibble) (b : Byte) : (s.setV x b).dirty = s.dirty := rfl
@[simp] theorem State.setV_latch (x : Nibble) (b : Byte) : (s.setV x b).latch = s.latch := rfl
@[simp] theorem State.setV_prevDown (x : Nibble) (b : Byte) : (s.setV x b).prevDown = s.prevDown := rfl
@[simp] theorem State.setV_rngState (x : Nibble) (b : Byte) : (s.setV x b).rngState = s.rngState := rfl
@[simp] theorem State.setV_rngInc (x : Nibble) (b : Byte) : (s.setV x b).rngInc = s.rngInc := rfl
@[simp] theorem State.setV_programSize (x : Nibble) (b : Byte) : (s.setV x b).programSize = s.programSize := rfl
@[simp] theorem State.setV_status (x : Nibble) (b : Byte) : (s.setV x b).status = s.status := rfl
@[simp] theorem State.setV_shlFlagMode (x : Nibble) (b : Byte) : (s.setV x b).shlFlagMode = s.shlFlagMode := rfl
@[simp] theorem State.setV_inputs (x : Nibble) (b : Byte) : (s.setV x b).inputs = s.inputs := rfl
@[simp] theorem State.setV_cycle (x : Nibble) (b : Byte) : (s.setV x b).cycle = s.cycle := rfl

@[simp] theorem State.setI_mem (a : Word) : (s.setI a).mem = s.mem := rfl
@[simp] theorem State.setI_v (a : Word) : (s.setI a).v = s.v := rfl
@[simp] theorem State.setI_i (a : Word) : (s.setI a).i = a := rfl
@[simp] theorem State.setI_pc (a : Word) : (s.setI a).pc = s.pc := rfl
@[simp] theorem State.setI_sp (a : Word) : (s.setI a).sp = s.sp := rfl
@[simp] theorem State.setI_stack (a : Word) : (s.setI a).stack = s.stack := rfl
@[simp] theorem State.setI_dt (a : Word) : (s.setI a).dt = s.dt := rfl
@[simp] theorem State.setI_st (a : Word) : (s.setI a).st = s.st := rfl
@[simp] theorem State.setI_disp (a : Word) : (s.setI a).disp = s.disp := rfl
@[simp] theorem State.setI_dirty (a : Word) : (s.setI a).dirty = s.dirty := rfl
@[simp] theorem State.setI_latch (a : Word) : (s.setI a).latch = s.latch := rfl
@[simp] theorem State.setI_prevDown (a : Word) : (s.setI a).prevDown = s.prevDown := rfl
@[simp] theorem State.setI_rngState (a : Word) : (s.setI a).rngState = s.rngState := rfl
@[simp] theorem State.setI_rngInc (a : Word) : (s.setI a).rngInc = s.rngInc := rfl
@[simp] theorem State.setI_programSize (a : Word) : (s.setI a).programSize = s.programSize := rfl
@[simp] theorem State.setI_status (a : Word) : (s.setI a).status = s.status := rfl
@[simp] theorem State.setI_shlFlagMode (a : Word) : (s.setI a).shlFlagMode = s.shlFlagMode := rfl
@[simp] theorem State.setI_inputs (a : Word) : (s.setI a).inputs = s.inputs := rfl
@[simp] theorem State.setI_cycle (a : Word) : (s.setI a).cycle = s.cycle := rfl

@[simp] theorem State.setPc_mem (a : Word) : (s.setPc a).mem = s.mem := rfl
@[simp] theorem State.setPc_v (a : Word) : (s.setPc a).v = s.v := rfl
@[simp] theorem State.setPc_i (a : Word) : (s.setPc a).i = s.i := rfl
@[simp] theorem State.setPc_pc (a : Word) : (s.setPc a).pc = a := rfl
@[simp] theorem State.setPc_sp (a : Word) : (s.setPc a).sp = s.sp := rfl
@[simp] theorem State.setPc_stack (a : Word) : (s.setPc a).stack = s.stack := rfl
@[simp] theorem State.setPc_dt (a : Word) : (s.setPc a).dt = s.dt := rfl
@[simp] theorem State.setPc_st (a : Word) : (s.setPc a).st = s.st := rfl
@[simp] theorem State.setPc_disp (a : Word) : (s.setPc a).disp = s.disp := rfl
@[simp] theorem State.setPc_dirty (a : Word) : (s.setPc a).dirty = s.dirty := rfl
@[simp] theorem State.setPc_latch (a : Word) : (s.setPc a).latch = s.latch := rfl
@[simp] theorem State.setPc_prevDown (a : Word) : (s.setPc a).prevDown = s.prevDown := rfl
@[simp] theorem State.setPc_rngState (a : Word) : (s.setPc a).rngState = s.rngState := rfl
@[simp] theorem State.setPc_rngInc (a : Word) : (s.setPc a).rngInc = s.rngInc := rfl
@[simp] theorem State.setPc_programSize (a : Word) : (s.setPc a).programSize = s.programSize := rfl
@[simp] theorem State.setPc_status (a : Word) : (s.setPc a).status = s.status := rfl
@[simp] theorem State.setPc_shlFlagMode (a : Word) : (s.setPc a).shlFlagMode = s.shlFlagMode := rfl
@[simp] theorem State.setPc_inputs (a : Word) : (s.setPc a).inputs = s.inputs := rfl
@[simp] theorem State.setPc_cycle (a : Word) : (s.setPc a).cycle = s.cycle := rfl

@[simp] theorem State.setDt_mem (b : Byte) : (s.setDt b).mem = s.mem := rfl
@[simp] theorem State.setDt_v (b : Byte) : (s.setDt b).v = s.v := rfl
@[simp] theorem State.setDt_i (b : Byte) : (s.setDt b).i = s.i := rfl
@[simp] theorem State.setDt_pc (b : Byte) : (s.setDt b).pc = s.pc := rfl
@[simp] theorem State.setDt_sp (b : Byte) : (s.setDt b).sp = s.sp := rfl
@[simp] theorem State.setDt_stack (b : Byte) : (s.setDt b).stack = s.stack := rfl
@[simp] theorem State.setDt_dt (b : Byte) : (s.setDt b).dt = b := rfl
@[simp] theorem State.setDt_st (b : Byte) : (s.setDt b).st = s.st := rfl
@[simp] theorem State.setDt_disp (b : Byte) : (s.setDt b).disp = s.disp := rfl
@[simp] theorem State.setDt_dirty (b : Byte) : (s.setDt b).dirty = s.dirty := rfl
@[simp] theorem State.setDt_latch (b : Byte) : (s.setDt b).latch = s.latch := rfl
@[simp] theorem State.setDt_prevDown (b : Byte) : (s.setDt b).prevDown = s.prevDown := rfl
@[simp] theorem State.setDt_rngState (b : Byte) : (s.setDt b).rngState = s.rngState := rfl
@[simp] theorem State.setDt_rngInc (b : Byte) : (s.setDt b).rngInc = s.rngInc := rfl
@[simp] theorem State.setDt_programSize (b : Byte) : (s.setDt b).programSize = s.programSize := rfl
@[simp] theorem State.setDt_status (b : Byte) : (s.setDt b).status = s.status := rfl
@[simp] theorem State.setDt_shlFlagMode (b : Byte) : (s.setDt b).shlFlagMode = s.shlFlagMode := rfl
@[simp] theorem State.setDt_inputs (b : Byte) : (s.setDt b).inputs = s.inputs := rfl
@[simp] theorem State.setDt_cycle (b : Byte) : (s.setDt b).cycle = s.cycle := rfl

@[simp] theorem State.setSt_mem (b : Byte) : (s.setSt b).mem = s.mem := rfl
@[simp] theorem State.setSt_v (b : Byte) : (s.setSt b).v = s.v := rfl
@[simp] theorem State.setSt_i (b : Byte) : (s.setSt b).i = s.i := rfl
@[simp] theorem State.setSt_pc (b : Byte) : (s.setSt b).pc = s.pc := rfl
@[simp] theorem State.setSt_sp (b : Byte) : (s.setSt b).sp = s.sp := rfl
@[simp] theorem State.setSt_stack (b : Byte) : (s.setSt b).stack = s.stack := rfl
@[simp] theorem State.setSt_dt (b : Byte) : (s.setSt b).dt = s.dt := rfl
@[simp] theorem State.setSt_st (b : Byte) : (s.setSt b).st = b := rfl
@[simp] theorem State.setSt_disp (b : Byte) : (s.setSt b).disp = s.disp := rfl
@[simp] theorem State.setSt_dirty (b : Byte) : (s.setSt b).dirty = s.dirty := rfl
@[simp] theorem State.setSt_latch (b : Byte) : (s.setSt b).latch = s.latch := rfl
@[simp] theorem State.setSt_prevDown (b : Byte) : (s.setSt b).prevDown = s.prevDown := rfl
@[simp] theorem State.setSt_rngState (b : Byte) : (s.setSt b).rngState = s.rngState := rfl
@[simp] theorem State.setSt_rngInc (b : Byte) : (s.setSt b).rngInc = s.rngInc := rfl
@[simp] theorem State.setSt_programSize (b : Byte) : (s.setSt b).programSize = s.programSize := rfl
@[simp] theorem State.setSt_status (b : Byte) : (s.setSt b).status = s.status := rfl
@[simp] theorem State.setSt_shlFlagMode (b : Byte) : (s.setSt b).shlFlagMode = s.shlFlagMode := rfl
@[simp] theorem State.setSt_inputs (b : Byte) : (s.setSt b).inputs = s.inputs := rfl
@[simp] theorem State.setSt_cycle (b : Byte) : (s.setSt b).cycle = s.cycle := rfl

@[simp] theorem State.setRng_mem (a : BitVec 64) : (s.setRng a).mem = s.mem := rfl
@[simp] theorem State.setRng_v (a : BitVec 64) : (s.setRng a).v = s.v := rfl
@[simp] theorem State.setRng_i (a : BitVec 64) : (s.setRng a).i = s.i := rfl
@[simp] theorem State.setRng_pc (a : BitVec 64) : (s.setRng a).pc = s.pc := rfl
@[simp] theorem State.setRng_sp (a : BitVec 64) : (s.setRng a).sp = s.sp := rfl
@[simp] theorem State.setRng_stack (a : BitVec 64) : (s.setRng a).stack = s.stack := rfl
@[simp] theorem State.setRng_dt (a : BitVec 64) : (s.setRng a).dt = s.dt := rfl
@[simp] theorem State.setRng_st (a : BitVec 64) : (s.setRng a).st = s.st := rfl
@[simp] theorem State.setRng_disp (a : BitVec 64) : (s.setRng a).disp = s.disp := rfl
@[simp] theorem State.setRng_dirty (a : BitVec 64) : (s.setRng a).dirty = s.dirty := rfl
@[simp] theorem State.setRng_latch (a : BitVec 64) : (s.setRng a).latch = s.latch := rfl
@[simp] theorem State.setRng_prevDown (a : BitVec 64) : (s.setRng a).prevDown = s.prevDown := rfl
@[simp] theorem State.setRng_rngState (a : BitVec 64) : (s.setRng a).rngState = a := rfl
@[simp] theorem State.setRng_rngInc (a : BitVec 64) : (s.setRng a).rngInc = s.rngInc := rfl
@[simp] theorem State.setRng_programSize (a : BitVec 64) : (s.setRng a).programSize = s.programSize := rfl
@[simp] theorem State.setRng_status (a : BitVec 64) : (s.setRng a).status = s.status := rfl
@[simp] theorem State.setRng_shlFlagMode (a : BitVec 64) : (s.setRng a).shlFlagMode = s.shlFlagMode := rfl
@[simp] theorem State.setRng_inputs (a : BitVec 64) : (s.setRng a).inputs = s.inputs := rfl
@[simp] theorem State.setRng_cycle (a : BitVec 64) : (s.setRng a).cycle = s.cycle := rfl

@[simp] theorem State.setDisp_mem (d : Display) : (s.setDisp d).mem = s.mem := rfl
@[simp] theorem State.setDisp_v (d : Display) : (s.setDisp d).v = s.v := rfl
@[simp] theorem State.setDisp_i (d : Display) : (s.setDisp d).i = s.i := rfl
@[simp] theorem State.setDisp_pc (d : Display) : (s.setDisp d).pc = s.pc := rfl
@[simp] theorem State.setDisp_sp (d : Display) : (s.setDisp d).sp = s.sp := rfl
@[simp] theorem State.setDisp_stack (d : Display) : (s.setDisp d).stack = s.stack := rfl
@[simp] theorem State.setDisp_dt (d : Display) : (s.setDisp d).dt = s.dt := rfl
@[simp] theorem State.setDisp_st (d : Display) : (s.setDisp d).st = s.st := rfl
@[simp] theorem State.setDisp_disp (d : Display) : (s.setDisp d).disp = d := rfl
@[simp] theorem State.setDisp_dirty (d : Display) : (s.setDisp d).dirty = true := rfl
@[simp] theorem State.setDisp_latch (d : Display) : (s.setDisp d).latch = s.latch := rfl
@[simp] theorem State.setDisp_prevDown (d : Display) : (s.setDisp d).prevDown = s.prevDown := rfl
@[simp] theorem State.setDisp_rngState (d : Display) : (s.setDisp d).rngState = s.rngState := rfl
@[simp] theorem State.setDisp_rngInc (d : Display) : (s.setDisp d).rngInc = s.rngInc := rfl
@[simp] theorem State.setDisp_programSize (d : Display) : (s.setDisp d).programSize = s.programSize := rfl
@[simp] theorem State.setDisp_status (d : Display) : (s.setDisp d).status = s.status := rfl
@[simp] theorem State.setDisp_shlFlagMode (d : Display) : (s.setDisp d).shlFlagMode = s.shlFlagMode := rfl
@[simp] theorem State.setDisp_inputs (d : Display) : (s.setDisp d).inputs = s.inputs := rfl
@[simp] theorem State.setDisp_cycle (d : Display) : (s.setDisp d).cycle = s.cycle := rfl

@[simp] theorem State.halt_mem (r : HaltReason) : (s.halt r).mem = s.mem := rfl
@[simp] theorem State.halt_v (r : HaltReason) : (s.halt r).v = s.v := rfl
@[simp] theorem State.halt_i (r : HaltReason) : (s.halt r).i = s.i := rfl
@[simp] theorem State.halt_pc (r : HaltReason) : (s.halt r).pc = s.pc := rfl
@[simp] theorem State.halt_sp (r : HaltReason) : (s.halt r).sp = s.sp := rfl
@[simp] theorem State.halt_stack (r : HaltReason) : (s.halt r).stack = s.stack := rfl
@[simp] theorem State.halt_dt (r : HaltReason) : (s.halt r).dt = s.dt := rfl
@[simp] theorem State.halt_st (r : HaltReason) : (s.halt r).st = s.st := rfl
@[simp] theorem State.halt_disp (r : HaltReason) : (s.halt r).disp = s.disp := rfl
@[simp] theorem State.halt_dirty (r : HaltReason) : (s.halt r).dirty = s.dirty := rfl
@[simp] theorem State.halt_latch (r : HaltReason) : (s.halt r).latch = s.latch := rfl
@[simp] theorem State.halt_prevDown (r : HaltReason) : (s.halt r).prevDown = s.prevDown := rfl
@[simp] theorem State.halt_rngState (r : HaltReason) : (s.halt r).rngState = s.rngState := rfl
@[simp] theorem State.halt_rngInc (r : HaltReason) : (s.halt r).rngInc = s.rngInc := rfl
@[simp] theorem State.halt_programSize (r : HaltReason) : (s.halt r).programSize = s.programSize := rfl
@[simp] theorem State.halt_status (r : HaltReason) : (s.halt r).status = .halted r := rfl
@[simp] theorem State.halt_shlFlagMode (r : HaltReason) : (s.halt r).shlFlagMode = s.shlFlagMode := rfl
@[simp] theorem State.halt_inputs (r : HaltReason) : (s.halt r).inputs = s.inputs := rfl
@[simp] theorem State.halt_cycle (r : HaltReason) : (s.halt r).cycle = s.cycle := rfl

@[simp] theorem State.pushed_mem (a : Word) : (s.pushed a).mem = s.mem := rfl
@[simp] theorem State.pushed_v (a : Word) : (s.pushed a).v = s.v := rfl
@[simp] theorem State.pushed_i (a : Word) : (s.pushed a).i = s.i := rfl
@[simp] theorem State.pushed_pc (a : Word) : (s.pushed a).pc = s.pc := rfl
@[simp] theorem State.pushed_sp (a : Word) : (s.pushed a).sp = s.sp + 1 := rfl
@[simp] theorem State.pushed_stack (a : Word) : (s.pushed a).stack = s.stack.setIfInBounds s.sp a := rfl
@[simp] theorem State.pushed_dt (a : Word) : (s.pushed a).dt = s.dt := rfl
@[simp] theorem State.pushed_st (a : Word) : (s.pushed a).st = s.st := rfl
@[simp] theorem State.pushed_disp (a : Word) : (s.pushed a).disp = s.disp := rfl
@[simp] theorem State.pushed_dirty (a : Word) : (s.pushed a).dirty = s.dirty := rfl
@[simp] theorem State.pushed_latch (a : Word) : (s.pushed a).latch = s.latch := rfl
@[simp] theorem State.pushed_prevDown (a : Word) : (s.pushed a).prevDown = s.prevDown := rfl
@[simp] theorem State.pushed_rngState (a : Word) : (s.pushed a).rngState = s.rngState := rfl
@[simp] theorem State.pushed_rngInc (a : Word) : (s.pushed a).rngInc = s.rngInc := rfl
@[simp] theorem State.pushed_programSize (a : Word) : (s.pushed a).programSize = s.programSize := rfl
@[simp] theorem State.pushed_status (a : Word) : (s.pushed a).status = s.status := rfl
@[simp] theorem State.pushed_shlFlagMode (a : Word) : (s.pushed a).shlFlagMode = s.shlFlagMode := rfl
@[simp] theorem State.pushed_inputs (a : Word) : (s.pushed a).inputs = s.inputs := rfl
@[simp] theorem State.pushed_cycle (a : Word) : (s.pushed a).cycle = s.cycle := rfl

@[simp] theorem State.popped_mem : s.popped.mem = s.mem := rfl
@[simp] theorem State.popped_v : s.popped.v = s.v := rfl
@[simp] theorem State.popped_i : s.popped.i = s.i := rfl
@[simp] theorem State.popped_pc : s.popped.pc = s.pc := rfl
@[simp] theorem State.popped_sp : s.popped.sp = s.sp - 1 := rfl
@[simp] theorem State.popped_stack : s.popped.stack = s.stack := rfl
@[simp] theorem State.popped_dt : s.popped.dt = s.dt := rfl
@[simp] theorem State.popped_st : s.popped.st = s.st := rfl
@[simp] theorem State.popped_disp : s.popped.disp = s.disp := rfl
@[simp] theorem State.popped_dirty : s.popped.dirty = s.dirty := rfl
@[simp] theorem State.popped_latch : s.popped.latch = s.latch := rfl
@[simp] theorem State.popped_prevDown : s.popped.prevDown = s.prevDown := rfl
@[simp] theorem State.popped_rngState : s.popped.rngState = s.rngState := rfl
@[simp] theorem State.popped_rngInc : s.popped.rngInc = s.rngInc := rfl
@[simp] theorem State.popped_programSize : s.popped.programSize = s.programSize := rfl
@[simp] theorem State.popped_status : s.popped.status = s.status := rfl
@[simp] theorem State.popped_shlFlagMode : s.popped.shlFlagMode = s.shlFlagMode := rfl
@[simp] theorem State.popped_inputs : s.popped.inputs = s.inputs := rfl
@[simp] theorem State.popped_cycle : s.popped.cycle = s.cycle := rfl

@[simp] theorem State.nextInput_mem : s.nextInput.mem = s.mem := rfl
@[simp] theorem State.nextInput_v : s.nextInput.v = s.v := rfl
@[simp] theorem State.nextInput_i : s.nextInput.i = s.i := rfl
@[simp] theorem State.nextInput_pc : s.nextInput.pc = s.pc := rfl
@[simp] theorem State.nextInput_sp : s.nextInput.sp = s.sp := rfl
@[simp] theorem State.nextInput_stack : s.nextInput.stack = s.stack := rfl
@[simp] theorem State.nextInput_dt : s.nextInput.dt = s.dt := rfl
@[simp] theorem State.nextInput_st : s.nextInput.st = s.st := rfl
@[simp] theorem State.nextInput_disp : s.nextInput.disp = s.disp := rfl
@[simp] theorem State.nextInput_dirty : s.nextInput.dirty = s.dirty := rfl
@[simp] theorem State.nextInput_latch : s.nextInput.latch = s.latch := rfl
@[simp] theorem State.nextInput_prevDown : s.nextInput.prevDown = s.prevDown := rfl
@[simp] theorem State.nextInput_rngState : s.nextInput.rngState = s.rngState := rfl
@[simp] theorem State.nextInput_rngInc : s.nextInput.rngInc = s.rngInc := rfl
@[simp] theorem State.nextInput_programSize : s.nextInput.programSize = s.programSize := rfl
@[simp] theorem State.nextInput_status : s.nextInput.status = s.status := rfl
@[simp] theorem State.nextInput_shlFlagMode : s.nextInput.shlFlagMode = s.shlFlagMode := rfl
@[simp] theorem State.nextInput_inputs : s.nextInput.inputs = s.inputs.tail := rfl
@[simp] theorem State.nextInput_cycle : s.nextInput.cycle = s.cycle + 1 := rfl

@[simp] theorem State.setKeys_mem (l p : KeySet) : (s.setKeys l p).mem = s.mem := rfl
@[simp] theorem State.setKeys_v (l p : KeySet) : (s.setKeys l p).v = s.v := rfl
@[simp] theorem State.setKeys_i (l p : KeySet) : (s.setKeys l p).i = s.i := rfl
@[simp] theorem State.setKeys_pc (l p : KeySet) : (s.setKeys l p).pc = s.pc := rfl
@[simp] theorem State.setKeys_sp (l p : KeySet) : (s.setKeys l p).sp = s.sp := rfl
@[simp] theorem State.setKeys_stack (l p : KeySet) : (s.setKeys l p).stack = s.stack := rfl
@[simp] theorem State.setKeys_dt (l p : KeySet) : (s.setKeys l p).dt = s.dt := rfl
@[simp] theorem State.setKeys_st (l p : KeySet) : (s.setKeys l p).st = s.st := rfl
@[simp] theorem State.setKeys_disp (l p : KeySet) : (s.setKeys l p).disp = s.disp := rfl
@[simp] theorem State.setKeys_dirty (l p : KeySet) : (s.setKeys l p).dirty = s.dirty := rfl
@[simp] theorem State.setKeys_latch (l p : KeySet) : (s.setKeys l p).latch = l := rfl
@[simp] theorem State.setKeys_prevDown (l p : KeySet) : (s.setKeys l p).prevDown = p := rfl
@[simp] theorem State.setKeys_rngState (l p : KeySet) : (s.setKeys l p).rngState = s.rngState := rfl
@[simp] theorem State.setKeys_rngInc (l p : KeySet) : (s.setKeys l p).rngInc = s.rngInc := rfl
@[simp] theorem State.setKeys_programSize (l p : KeySet) : (s.setKeys l p).programSize = s.programSize := rfl
@[simp] theorem State.setKeys_status (l p : KeySet) : (s.setKeys l p).status = s.status := rfl
@[simp] theorem State.setKeys_shlFlagMode (l p : KeySet) : (s.setKeys l p).shlFlagMode = s.shlFlagMode := rfl
@[simp] theorem State.setKeys_inputs (l p : KeySet) : (s.setKeys l p).inputs = s.inputs := rfl
@[simp] theorem State.setKeys_cycle (l p : KeySet) : (s.setKeys l p).cycle = s.cycle := rfl

@[simp] theorem State.clearDirty_mem : s.clearDirty.mem = s.mem := rfl
@[simp] theorem State.clearDirty_v : s.clearDirty.v = s.v := rfl
@[simp] theorem State.clearDirty_i : s.clearDirty.i = s.i := rfl
@[simp] theorem State.clearDirty_pc : s.clearDirty.pc = s.pc := rfl
@[simp] theorem State.clearDirty_sp : s.clearDirty.sp = s.sp := rfl
@[simp] theorem State.clearDirty_stack : s.clearDirty.stack = s.stack := rfl
@[simp] theorem State.clearDirty_dt : s.clearDirty.dt = s.dt := rfl
@[simp] theorem State.clearDirty_st : s.clearDirty.st = s.st := rfl
@[simp] theorem State.clearDirty_disp : s.clearDirty.disp = s.disp := rfl
@[simp] theorem State.clearDirty_dirty : s.clearDirty.dirty = false := rfl
@[simp] theorem State.clearDirty_latch : s.clearDirty.latch = s.latch := rfl
@[simp] theorem State.clearDirty_prevDown : s.clearDirty.prevDown = s.prevDown := rfl
@[simp] theorem State.clearDirty_rngState : s.clearDirty.rngState = s.rngState := rfl
@[simp] theorem State.clearDirty_rngInc : s.clearDirty.rngInc = s.rngInc := rfl
@[simp] theorem State.clearDirty_programSize : s.clearDirty.programSize = s.programSize := rfl
@[simp] theorem State.clearDirty_status : s.clearDirty.status = s.status := rfl
@[simp] theorem State.clearDirty_shlFlagMode : s.clearDirty.shlFlagMode = s.shlFlagMode := rfl
@[simp] theorem State.clearDirty_inputs : s.clearDirty.inputs = s.inputs := rfl
@[simp] theorem State.clearDirty_cycle : s.clearDirty.cycle = s.cycle := rfl

end Sys2Proof.Machine
end

