-- ==== Sys2Proof/Laws/Memory.lean ====
section
/-! SUPPORT. The laws of memory: a read after a write, and the canonical form that every memory operation keeps. -/

namespace Sys2Proof.Machine

/-! ### Read after write -/

theorem Memory.read_insert_same (m : Memory) (a : Nat) (v : Byte) (h : ∀ c ∈ m, c.1 ≠ a) :
    (Memory.insert m a v).read a = v := by
  induction m with
  | nil => simp [Memory.insert, Memory.read]
  | cons c m ih =>
    obtain ⟨b, w⟩ := c
    have hb : b ≠ a := h (b, w) (by simp)
    have hm : ∀ c ∈ m, c.1 ≠ a := fun c hc => h c (by simp [hc])
    by_cases hab : a < b <;> simp [Memory.insert, Memory.read, hab, hb, ih hm]

theorem Memory.read_insert_ne (m : Memory) {a c : Nat} (v : Byte) (h : c ≠ a) :
    (Memory.insert m a v).read c = m.read c := by
  induction m with
  | nil => simp [Memory.insert, Memory.read, Ne.symm h]
  | cons e m ih =>
    obtain ⟨b, w⟩ := e
    by_cases hab : a < b <;> simp [Memory.insert, Memory.read, hab, Ne.symm h, ih]

theorem Memory.read_filter_same (m : Memory) (a : Nat) :
    Memory.read (m.filter (fun c => c.1 != a)) a = Memory.base a := by
  induction m with
  | nil => rfl
  | cons e m ih =>
    obtain ⟨b, w⟩ := e
    by_cases hb : b = a <;> simp_all [Memory.read]

theorem Memory.read_filter_ne (m : Memory) {a c : Nat} (h : c ≠ a) :
    Memory.read (m.filter (fun e => e.1 != a)) c = m.read c := by
  induction m with
  | nil => rfl
  | cons e m ih =>
    obtain ⟨b, w⟩ := e
    by_cases hb : b = a
    · have hc : b ≠ c := fun hbc => h (hbc ▸ hb)
      simp_all [Memory.read]
    · simp [hb, Memory.read, ih]

@[simp] theorem Memory.read_write_same (m : Memory) (a : Nat) (v : Byte) : (m.write a v).read a = v := by
  unfold Memory.write
  by_cases hv : v = Memory.base a
  · simp only [hv, if_true]
    exact Memory.read_filter_same m a
  · simp only [hv, if_false]
    refine Memory.read_insert_same _ a v fun c hc => ?_
    simpa using (List.mem_filter.mp hc).2

theorem Memory.read_write_ne (m : Memory) {a c : Nat} (v : Byte) (h : c ≠ a) : (m.write a v).read c = m.read c := by
  unfold Memory.write
  by_cases hv : v = Memory.base a
  · simp only [hv, if_true]
    exact Memory.read_filter_ne m h
  · simp only [hv, if_false]
    exact (Memory.read_insert_ne _ v h).trans (Memory.read_filter_ne m h)

theorem Memory.read_write (m : Memory) (a c : Nat) (v : Byte) :
    (m.write a v).read c = if c = a then v else m.read c := by
  by_cases h : c = a
  · simp [h]
  · simp [h, Memory.read_write_ne m v h]

/-- Reading after a run of consecutive writes. -/
theorem Memory.read_writeAll (bs : List Byte) (m : Memory) (a c : Nat) :
    (m.writeAll a bs).read c = if a ≤ c ∧ c < a + bs.length then bs.getD (c - a) 0#8 else m.read c := by
  induction bs generalizing m a with
  | nil => simp [Memory.writeAll]
  | cons b bs ih =>
    rw [Memory.writeAll, ih, Memory.read_write]
    by_cases hc : c = a
    · subst hc
      simp
    · by_cases hac : a ≤ c
      · obtain ⟨k, rfl⟩ : ∃ k, c = a + 1 + k := ⟨c - (a + 1), by omega⟩
        have e1 : a + 1 + k - a = k + 1 := by omega
        have e2 : a + 1 + k - (a + 1) = k := by omega
        have e3 : (a + 1 ≤ a + 1 + k ∧ a + 1 + k < a + 1 + bs.length) ↔
            (a ≤ a + 1 + k ∧ a + 1 + k < a + (bs.length + 1)) := by omega
        simp only [e1, e2, e3, List.length_cons, List.getD_cons_succ, hc, if_false]
      · have h1 : ¬(a + 1 ≤ c ∧ c < a + 1 + bs.length) := by omega
        have h2 : ¬(a ≤ c ∧ c < a + (bs.length + 1)) := by omega
        rw [if_neg h1, if_neg hc, List.length_cons, if_neg h2]

/-! ### The canonical form -/

theorem Memory.wfFrom_mono {lo lo' : Nat} (h : lo ≤ lo') (m : Memory) (hm : Memory.wfFrom lo' m = true) :
    Memory.wfFrom lo m = true := by
  cases m with
  | nil => rfl
  | cons e m =>
    obtain ⟨b, w⟩ := e
    simp only [Memory.wfFrom, Bool.and_eq_true, decide_eq_true_eq] at hm ⊢
    exact ⟨⟨⟨by omega, hm.1.1.2⟩, hm.1.2⟩, hm.2⟩

theorem Memory.wfFrom_filter (a : Nat) (m : Memory) (lo : Nat) (hm : Memory.wfFrom lo m = true) :
    Memory.wfFrom lo (m.filter (fun c => c.1 != a)) = true := by
  induction m generalizing lo with
  | nil => rfl
  | cons e m ih =>
    obtain ⟨b, w⟩ := e
    simp only [Memory.wfFrom, Bool.and_eq_true, decide_eq_true_eq] at hm
    by_cases hb : b = a
    · have := Memory.wfFrom_mono (lo := lo) (by omega) _ (ih _ hm.2)
      simpa [hb] using this
    · have hb' : (b != a) = true := by simpa using hb
      simp only [List.filter_cons, hb', if_true, Memory.wfFrom, Bool.and_eq_true, decide_eq_true_eq]
      exact ⟨hm.1, ih _ hm.2⟩

theorem Memory.wfFrom_insert (a : Nat) (v : Byte) (ha : a < Config.memSize) (hv : v ≠ Memory.base a) (m : Memory) (lo : Nat)
    (hlo : lo ≤ a) (hne : ∀ c ∈ m, c.1 ≠ a) (hm : Memory.wfFrom lo m = true) :
    Memory.wfFrom lo (Memory.insert m a v) = true := by
  induction m generalizing lo with
  | nil => simp [Memory.insert, Memory.wfFrom, hlo, ha, hv]
  | cons e m ih =>
    obtain ⟨b, w⟩ := e
    have hb : b ≠ a := hne (b, w) (by simp)
    simp only [Memory.wfFrom, Bool.and_eq_true, decide_eq_true_eq] at hm
    by_cases hab : a < b
    · simp only [Memory.insert, hab, if_true, Memory.wfFrom, Bool.and_eq_true, decide_eq_true_eq]
      exact ⟨⟨⟨hlo, ha⟩, by simpa using hv⟩, ⟨⟨⟨by omega, hm.1.1.2⟩, hm.1.2⟩, hm.2⟩⟩
    · simp only [Memory.insert, hab, if_false, Memory.wfFrom, Bool.and_eq_true, decide_eq_true_eq]
      exact ⟨hm.1, ih _ (by omega) (fun c hc => hne c (by simp [hc])) hm.2⟩

/-- A write inside the address space keeps the canonical form. -/
theorem Memory.wf_write (m : Memory) {a : Nat} (v : Byte) (ha : a < Config.memSize) (hm : m.wf = true) :
    (m.write a v).wf = true := by
  unfold Memory.wf at hm ⊢
  unfold Memory.write
  by_cases hv : v = Memory.base a
  · simp only [hv, if_true]
    exact Memory.wfFrom_filter a m 0 hm
  · simp only [hv, if_false]
    refine Memory.wfFrom_insert a v ha hv _ 0 (Nat.zero_le a) (fun c hc => ?_) (Memory.wfFrom_filter a m 0 hm)
    simpa using (List.mem_filter.mp hc).2

/-- A run of consecutive writes inside the address space keeps the canonical form. -/
theorem Memory.wf_writeAll (bs : List Byte) (m : Memory) (a : Nat) (ha : a + bs.length ≤ Config.memSize)
    (hm : m.wf = true) : (m.writeAll a bs).wf = true := by
  induction bs generalizing m a with
  | nil => exact hm
  | cons b bs ih =>
    simp only [List.length_cons] at ha
    exact ih _ _ (by omega) (Memory.wf_write m b (by omega) hm)

/-- Reset memory has the canonical form. -/
theorem Memory.wf_reset : State.reset.mem.wf = true := rfl

end Sys2Proof.Machine
end

