-- ==== Sys2Proof/Laws/Ops.lean ====
section
/-! SUPPORT. What each shared operation over registers, memory and the stack does, said once. -/

namespace Sys2Proof.Machine

/-! ### Registers -/

@[simp] theorem State.getV_setV_same (s : State) (x : Nibble) (b : Byte) : (s.setV x b).getV x = b := by
  simp [State.getV, State.setV]

theorem State.getV_setV_ne (s : State) {x r : Nibble} (b : Byte) (h : r ≠ x) : (s.setV x b).getV r = s.getV r := by
  have hn : x.toNat ≠ r.toNat := fun e => h (BitVec.eq_of_toNat_eq e).symm
  simp [State.getV, State.setV, hn]

theorem State.getV_setV (s : State) (x r : Nibble) (b : Byte) :
    (s.setV x b).getV r = if r = x then b else s.getV r := by
  by_cases h : r = x
  · simp [h]
  · simp [h, State.getV_setV_ne s b h]

@[simp] theorem State.getV_setByte (s : State) (a : Nat) (b : Byte) (r : Nibble) : (s.setByte a b).getV r = s.getV r := rfl
@[simp] theorem State.getV_setI (s : State) (a : Word) (r : Nibble) : (s.setI a).getV r = s.getV r := rfl
@[simp] theorem State.getV_setPc (s : State) (a : Word) (r : Nibble) : (s.setPc a).getV r = s.getV r := rfl
@[simp] theorem State.getV_setDt (s : State) (b : Byte) (r : Nibble) : (s.setDt b).getV r = s.getV r := rfl
@[simp] theorem State.getV_setSt (s : State) (b : Byte) (r : Nibble) : (s.setSt b).getV r = s.getV r := rfl
@[simp] theorem State.getV_setRng (s : State) (a : BitVec 64) (r : Nibble) : (s.setRng a).getV r = s.getV r := rfl
@[simp] theorem State.getV_setDisp (s : State) (d : Display) (r : Nibble) : (s.setDisp d).getV r = s.getV r := rfl
@[simp] theorem State.getV_halt (s : State) (e : HaltReason) (r : Nibble) : (s.halt e).getV r = s.getV r := rfl
@[simp] theorem State.getV_pushed (s : State) (a : Word) (r : Nibble) : (s.pushed a).getV r = s.getV r := rfl
@[simp] theorem State.getV_popped (s : State) (r : Nibble) : s.popped.getV r = s.getV r := rfl

/-! ### Memory access -/

theorem State.memRead_ok (s : State) {a : Nat} (h : a < 4096) : s.memRead a = .ok (s.mem.read a) := by
  simp [State.memRead, h]

theorem State.memRead_error (s : State) {a : Nat} (h : 4096 ≤ a) : s.memRead a = .error a := by
  simp [State.memRead, Nat.not_lt.mpr h]

theorem State.memWrite_ok (s : State) {a : Nat} (b : Byte) (h : a < 4096) : s.memWrite a b = .ok (s.setByte a b) := by
  simp [State.memWrite, h]

theorem State.memWrite_error (s : State) {a : Nat} (b : Byte) (h : 4096 ≤ a) : s.memWrite a b = .error a := by
  simp [State.memWrite, Nat.not_lt.mpr h]

theorem State.memReadWord_ok (s : State) {a : Nat} (h : a + 1 < 4096) :
    s.memReadWord a = .ok (wordOfBytes (s.mem.read a) (s.mem.read (a + 1))) := by
  simp [State.memReadWord, s.memRead_ok (show a < 4096 by omega), s.memRead_ok h]

/-- A word read fails exactly from 0xFFF on, with the first address out of range (R58). -/
theorem State.memReadWord_error (s : State) {a : Nat} (h : 4096 ≤ a + 1) :
    s.memReadWord a = .error (max a 4096) := by
  by_cases ha : a < 4096
  · have hm : max a 4096 = a + 1 := by omega
    simp [State.memReadWord, s.memRead_ok ha, s.memRead_error h, hm]
  · have hm : max a 4096 = a := by omega
    simp [State.memReadWord, s.memRead_error (show 4096 ≤ a by omega), hm]

/-! ### The stack -/

/-- What `push` can do (R27). -/
theorem State.push_cases (s : State) (a : Word) :
    (s.sp < 16 ∧ s.push a = .ok (s.pushed a)) ∨ (16 ≤ s.sp ∧ s.push a = .error (.stackOverflow s.instrAddr)) := by
  by_cases h : s.sp < 16
  · exact .inl ⟨h, by simp [State.push, h]⟩
  · exact .inr ⟨by omega, by simp [State.push, h]⟩

/-- The top entry of a stack in range. -/
theorem State.stackTop_eq (s : State) (k : Nat) (h : k < 16) (hs : s.sp = k + 1) : s.stackTop = s.stack[k] := by
  simp [State.stackTop, hs, Vector.getD, h]

/-- What `pop` can do (R28). -/
theorem State.pop_cases (s : State) :
    (s.sp ≠ 0 ∧ s.pop = .ok (s.stackTop, s.popped)) ∨ (s.sp = 0 ∧ s.pop = .error (.stackUnderflow s.instrAddr)) := by
  by_cases h : s.sp = 0
  · exact .inr ⟨h, by simp [State.pop, h]⟩
  · exact .inl ⟨h, by simp [State.pop, h]⟩

/-! ### Multi-byte accesses -/

/-- Bytes that all fit are stored. -/
theorem State.storeBytes_ok (bs : List Byte) (s : State) (a : Nat) (h : a + bs.length ≤ 4096) :
    s.storeBytes a bs = { s with mem := s.mem.writeAll a bs } := by
  induction bs generalizing s a with
  | nil => rfl
  | cons b bs ih =>
    simp only [List.length_cons] at h
    rw [State.storeBytes, s.memWrite_ok b (by omega)]
    exact ih _ _ (by omega)

/-- Bytes that do not all fit: those below 4096 are stored and the run ends at the first address out of bounds (R60). -/
theorem State.storeBytes_outOfBounds (bs : List Byte) (s : State) (a : Nat) (h : 4096 < a + bs.length) (hb : bs ≠ []) :
    s.storeBytes a bs =
      { s with mem := s.mem.writeAll a (bs.take (4096 - a)),
               status := .halted (.outOfBounds s.instrAddr (max a 4096)) } := by
  induction bs generalizing s a with
  | nil => exact absurd rfl hb
  | cons b bs ih =>
    by_cases ha : a < 4096
    · rw [State.storeBytes, s.memWrite_ok b ha]
      have hbs : bs ≠ [] := by
        rintro rfl
        simp at h
        omega
      have e : 4096 - a = (4096 - (a + 1)) + 1 := by omega
      have hm : max a 4096 = max (a + 1) 4096 := by omega
      simp only [List.length_cons] at h
      rw [e, List.take_succ_cons, hm]
      exact ih _ _ (by omega) hbs
    · have e : 4096 - a = 0 := by omega
      have hm : max a 4096 = a := by omega
      rw [State.storeBytes, s.memWrite_error b (by omega), e, hm]
      rfl

/-- Everything a store of bytes at I can do: it writes memory inside the bytes named, keeping the canonical form, and it
leaves the status or ends the run. -/
theorem State.storeBytes_spec (bs : List Byte) (s : State) (a : Nat) :
    ∃ m st, s.storeBytes a bs = { s with mem := m, status := st } ∧
      (∀ c, ¬(a ≤ c ∧ c < a + bs.length) → m.read c = s.mem.read c) ∧ (s.mem.wf = true → m.wf = true) ∧
      (st = s.status ∨
        (bs ≠ [] ∧ 4096 < a + bs.length ∧ st = .halted (.outOfBounds s.instrAddr (max a 4096)))) := by
  by_cases hb : bs = []
  · subst hb
    exact ⟨s.mem, s.status, rfl, fun _ _ => rfl, id, .inl rfl⟩
  · by_cases h : a + bs.length ≤ 4096
    · refine ⟨_, s.status, State.storeBytes_ok bs s a h, fun c hc => ?_, Memory.wf_writeAll bs s.mem a h, .inl rfl⟩
      rw [Memory.read_writeAll, if_neg hc]
    · refine ⟨_, _, State.storeBytes_outOfBounds bs s a (by omega) hb, fun c hc => ?_, fun hw => ?_,
        .inr ⟨hb, by omega, rfl⟩⟩
      · rw [Memory.read_writeAll, if_neg]
        simp only [List.length_take]
        omega
      · by_cases ha : a < 4096
        · exact Memory.wf_writeAll _ _ _ (by simp only [List.length_take, Config.memSize]; omega) hw
        · have e : 4096 - a = 0 := by omega
          rw [e]
          exact hw

/-- Placing a word keeps the canonical form. -/
theorem State.wf_placeWord (s : State) (w : Word) (h : s.mem.wf = true) : (s.placeWord w).mem.wf = true := by
  show Memory.wf (if s.pc.toNat + 1 < Config.memSize then _ else _) = true
  split
  · exact Memory.wf_writeAll _ _ _ (by simp only [bytesOfWord, List.length_cons, List.length_nil]; omega) h
  · exact h

/-- A load of registers writes registers, and status only if an address is out of bounds. -/
theorem State.loadRegs_frame (n : Nat) (s : State) (a k : Nat) :
    (a + n ≤ 4096 ∨ n = 0 → s.loadRegs a k n = { s with v := (s.loadRegs a k n).v }) ∧
    (4096 < a + n → n ≠ 0 → s.loadRegs a k n =
      { s with v := (s.loadRegs a k n).v, status := .halted (.outOfBounds s.instrAddr (max a 4096)) }) := by
  induction n generalizing s a k with
  | zero => exact ⟨fun _ => rfl, fun _ h => absurd rfl h⟩
  | succ n ih =>
    by_cases ha : a < 4096
    · obtain ⟨h1, h2⟩ := ih (s.setV (BitVec.ofNat 4 k) (s.mem.read a)) (a + 1) (k + 1)
      have e : s.loadRegs a k (n + 1) = (s.setV (BitVec.ofNat 4 k) (s.mem.read a)).loadRegs (a + 1) (k + 1) n := by
        rw [State.loadRegs, s.memRead_ok ha]
      rw [e]
      refine ⟨fun h => ?_, fun h _ => ?_⟩
      · exact h1 (by omega)
      · have hm : max a 4096 = max (a + 1) 4096 := by omega
        rw [hm]
        exact h2 (by omega) (by omega)
    · have e : s.loadRegs a k (n + 1) = s.halt (.outOfBounds s.instrAddr a) := by
        rw [State.loadRegs, s.memRead_error (by omega)]
      have hm : max a 4096 = a := by omega
      rw [e, hm]
      exact ⟨fun h => by omega, fun _ _ => rfl⟩

/-- A load of registers that fits: the registers from `k` on hold the bytes, the others are unchanged. -/
theorem State.getV_loadRegs (n : Nat) (s : State) (a k : Nat) (h : a + n ≤ 4096) (hk : k + n ≤ 16) (r : Nibble) :
    (s.loadRegs a k n).getV r =
      if k ≤ r.toNat ∧ r.toNat < k + n then s.mem.read (a + (r.toNat - k)) else s.getV r := by
  induction n generalizing s a k with
  | zero =>
    have : ¬(k ≤ r.toNat ∧ r.toNat < k + 0) := by omega
    rw [if_neg this]
    rfl
  | succ n ih =>
    rw [State.loadRegs, s.memRead_ok (by omega)]
    simp only []
    rw [ih _ _ _ (by omega) (by omega), State.getV_setV, State.setV_mem]
    have hkn : (BitVec.ofNat 4 k).toNat = k := by simp; omega
    by_cases hr : r.toNat = k
    · have hx : r = BitVec.ofNat 4 k := BitVec.eq_of_toNat_eq (by omega)
      have h1 : ¬(k + 1 ≤ r.toNat ∧ r.toNat < k + 1 + n) := by omega
      have h2 : k ≤ r.toNat ∧ r.toNat < k + (n + 1) := by omega
      rw [if_neg h1, if_pos hx, if_pos h2, hr]
      simp
    · have hx : r ≠ BitVec.ofNat 4 k := fun e => hr (by rw [e, hkn])
      rw [if_neg hx]
      by_cases h1 : k + 1 ≤ r.toNat ∧ r.toNat < k + 1 + n
      · have h2 : k ≤ r.toNat ∧ r.toNat < k + (n + 1) := by omega
        rw [if_pos h1, if_pos h2]
        congr 1
        omega
      · have h2 : ¬(k ≤ r.toNat ∧ r.toNat < k + (n + 1)) := by omega
        rw [if_neg h1, if_neg h2]

/-- Bytes that all fit are read in order (R182). -/
theorem State.readBytes_ok (n : Nat) (s : State) (a : Nat) (h : a + n ≤ 4096) :
    s.readBytes a n = .ok ((List.range n).map (fun j => s.mem.read (a + j))) := by
  induction n generalizing a with
  | zero => rfl
  | succ n ih =>
    rw [State.readBytes, s.memRead_ok (by omega)]
    simp only []
    rw [ih (a + 1) (by omega), List.range_succ_eq_map]
    simp [Function.comp_def, Nat.add_assoc, Nat.add_comm 1]

/-- A read of bytes that do not all fit names the first address out of bounds. -/
theorem State.readBytes_outOfBounds (n : Nat) (s : State) (a : Nat) (h : 4096 < a + n) (hn : n ≠ 0) :
    s.readBytes a n = .error (max a 4096) := by
  induction n generalizing a with
  | zero => exact absurd rfl hn
  | succ n ih =>
    by_cases ha : a < 4096
    · have hm : max a 4096 = max (a + 1) 4096 := by omega
      rw [State.readBytes, s.memRead_ok ha]
      simp only []
      rw [ih (a + 1) (by omega) (by omega), hm]
    · have hm : max a 4096 = a := by omega
      rw [State.readBytes, s.memRead_error (by omega), hm]

/-- What reading a sprite's rows can do; no row is read for a count of 0. -/
theorem State.readBytes_cases (s : State) (a n : Nat) :
    ((a + n ≤ 4096 ∨ n = 0) ∧ s.readBytes a n = .ok ((List.range n).map (fun j => s.mem.read (a + j)))) ∨
    (4096 < a + n ∧ n ≠ 0 ∧ s.readBytes a n = .error (max a 4096)) := by
  by_cases h : a + n ≤ 4096
  · exact .inl ⟨.inl h, State.readBytes_ok n s a h⟩
  · by_cases hn : n = 0
    · subst hn
      exact .inl ⟨.inr rfl, rfl⟩
    · exact .inr ⟨by omega, hn, State.readBytes_outOfBounds n s a (by omega) hn⟩

/-! ### Operands -/

/-- No lowest key exactly for the empty set (R203). -/
theorem lowestKey_eq_none {keys : KeySet} : lowestKey keys = none ↔ keys = 0#16 := by
  unfold lowestKey
  rw [List.find?_eq_none]
  constructor
  · intro h
    apply BitVec.eq_of_getLsbD_eq
    intro k hk
    simpa using h k (by simpa using hk)
  · rintro rfl k -
    simp

/-- The lowest key is in the set and no lower key is (R203). -/
theorem lowestKey_eq_some {keys : KeySet} {k : Nat} (hk : keys.getLsbD k = true)
    (hj : ∀ j, j < k → keys.getLsbD j = false) : lowestKey keys = some k := by
  have hlt : k < 16 := by
    by_contra h
    rw [BitVec.getLsbD_of_ge _ _ (by omega)] at hk
    cases hk
  unfold lowestKey
  rw [List.find?_eq_some_iff_append]
  refine ⟨hk, List.range k, (List.range (15 - k)).map (· + (k + 1)), ?_, fun j h => ?_⟩
  · have e : 16 = k + (1 + (15 - k)) := by omega
    conv_lhs => rw [e, List.range_add, List.range_add]
    simp [Nat.add_comm, Nat.add_left_comm]
  · simp [hj j (by simpa using h)]


@[simp] theorem toNat_zext16 (nnn : Addr) : (zext16 nnn).toNat = nnn.toNat := by
  simp [zext16]
  omega

@[simp] theorem toNat_zextByte (b : Byte) : (zextByte b).toNat = b.toNat := by
  simp [zextByte]
  omega

@[simp] theorem length_bcdDigits (b : Byte) : (bcdDigits b).length = 3 := rfl

@[simp] theorem length_regsUpTo (s : State) (x : Nibble) : (s.regsUpTo x).length = x.toNat + 1 := by
  simp [State.regsUpTo]

/-- The digits stored by `Fx33`, one by one (R163). -/
theorem getD_bcdDigits (b : Byte) {j : Nat} (h : j < 3) :
    (bcdDigits b).getD j 0#8 = BitVec.ofNat 8 (b.toNat / 10 ^ (2 - j) % 10) := by
  obtain rfl | rfl | rfl : j = 0 ∨ j = 1 ∨ j = 2 := by omega
  all_goals simp [bcdDigits]

/-- The registers stored by `Fx55`, one by one (R164). -/
theorem getD_regsUpTo (s : State) (x : Nibble) {j : Nat} (h : j < x.toNat + 1) :
    (s.regsUpTo x).getD j 0#8 = s.getV (BitVec.ofNat 4 j) := by
  simp [State.regsUpTo, h]

end Sys2Proof.Machine
end

