-- ==== Sys2Proof/Laws/Display.lean ====
section
/-! SUPPORT. The compositor: one pixel, one row, one sprite (R181, R183 to R185). -/

namespace Sys2Proof.Machine

/-! ### Pixels -/

theorem Display.pixel_setPixel (d : Display) (r r' : Fin 32) (c c' : Fin 64) (b : Bool) :
    (d.setPixel r c b).pixel r' c' = if r' = r ∧ c' = c then b else d.pixel r' c' := by
  by_cases hr : r' = r
  · subst hr
    by_cases hc : c' = c
    · subst hc
      simp [Display.pixel, Display.setPixel, Vector.get_eq_getElem]
    · have : c.val ≠ c'.val := fun e => hc (Fin.ext e).symm
      simp [Display.pixel, Display.setPixel, Vector.get_eq_getElem, hc, this]
  · have : r.val ≠ r'.val := fun e => hr (Fin.ext e).symm
    simp [Display.pixel, Display.setPixel, Vector.get_eq_getElem, hr, this]

@[simp] theorem Display.pixel_clear (r : Fin 32) (c : Fin 64) : Display.clear.pixel r c = false := by
  simp [Display.pixel, Display.clear, Vector.get_eq_getElem]

/-- Two displays with the same pixels are the same display. -/
theorem Display.ext_pixel {d e : Display} (h : ∀ r c, d.pixel r c = e.pixel r c) : d = e := by
  apply Vector.ext
  intro r hr
  apply Vector.ext
  intro c hc
  have := h ⟨r, hr⟩ ⟨c, hc⟩
  simpa [Display.pixel, Vector.get_eq_getElem] using this

theorem plot_pixel (dc : Display × Bool) (r r' : Fin 32) (c c' : Fin 64) (bit : Bool) :
    (plot dc r c bit).1.pixel r' c' =
      if r' = r ∧ c' = c then dc.1.pixel r' c' ^^ bit else dc.1.pixel r' c' := by
  unfold plot
  rw [Display.pixel_setPixel]
  by_cases h : r' = r ∧ c' = c
  · rw [if_pos h, if_pos h, h.1, h.2]
  · rw [if_neg h, if_neg h]

/-- A collision is a pixel that was 1 under a sprite bit 1 (R183). -/
theorem plot_collision (dc : Display × Bool) (r : Fin 32) (c : Fin 64) (bit : Bool) :
    (plot dc r c bit).2 = (dc.2 || (dc.1.pixel r c && bit)) := by
  unfold plot
  cases dc.1.pixel r c <;> cases bit <;> simp

/-! ### Rows -/

/-- How far right of `x0` a column is, around the edge. -/
def colOffset (x0 : Nat) (c : Fin 64) : Nat := (c.val + 64 - x0 % 64) % 64

/-- How far below `y` a row is, around the edge. -/
def rowOffset (y : Nat) (r : Fin 32) : Nat := (r.val + 32 - y % 32) % 32

theorem eq_dispCol_iff (x0 k : Nat) (hk : k < 64) (c : Fin 64) : c = dispCol (x0 + k) ↔ colOffset x0 c = k := by
  rw [Fin.ext_iff]
  simp only [dispCol, colOffset]
  omega

theorem eq_dispRow_iff (y j : Nat) (hj : j < 32) (r : Fin 32) : r = dispRow (y + j) ↔ rowOffset y r = j := by
  rw [Fin.ext_iff]
  simp only [dispRow, rowOffset]
  omega

/-- The first `n` pixels of a sprite row. -/
def drawRowTo (n x0 y : Nat) (row : Byte) (dc : Display × Bool) : Display × Bool :=
  (List.range n).foldl (fun acc k => plot acc (dispRow y) (dispCol (x0 + k)) (spriteBit row k)) dc

theorem drawRowTo_succ (n x0 y : Nat) (row : Byte) (dc : Display × Bool) :
    drawRowTo (n + 1) x0 y row dc =
      plot (drawRowTo n x0 y row dc) (dispRow y) (dispCol (x0 + n)) (spriteBit row n) := by
  simp [drawRowTo, List.range_succ]

theorem drawRowTo_pixel (n x0 y : Nat) (row : Byte) (dc : Display × Bool) (hn : n ≤ 8) (r : Fin 32) (c : Fin 64) :
    (drawRowTo n x0 y row dc).1.pixel r c =
      if r = dispRow y ∧ colOffset x0 c < n then dc.1.pixel r c ^^ spriteBit row (colOffset x0 c)
      else dc.1.pixel r c := by
  induction n with
  | zero => simp [drawRowTo]
  | succ n ih =>
    rw [drawRowTo_succ, plot_pixel, ih (by omega)]
    simp only [eq_dispCol_iff x0 n (by omega)]
    by_cases hr : r = dispRow y
    · by_cases hc : colOffset x0 c = n
      · have h1 : ¬(colOffset x0 c < n) := by omega
        have h2 : colOffset x0 c < n + 1 := by omega
        rw [if_pos ⟨hr, hc⟩, if_neg (fun h => h1 h.2), if_pos ⟨hr, h2⟩, hc]
      · have h1 : colOffset x0 c < n + 1 ↔ colOffset x0 c < n := by omega
        rw [if_neg (fun h => hc h.2)]
        simp only [h1]
    · rw [if_neg (fun h => hr h.1), if_neg (fun h => hr h.1), if_neg (fun h => hr h.1)]

theorem drawRowTo_collision (n x0 y : Nat) (row : Byte) (dc : Display × Bool) (hn : n ≤ 8) :
    (drawRowTo n x0 y row dc).2 = true ↔
      dc.2 = true ∨ ∃ c, dc.1.pixel (dispRow y) c = true ∧ colOffset x0 c < n ∧
        spriteBit row (colOffset x0 c) = true := by
  induction n with
  | zero => simp [drawRowTo]
  | succ n ih =>
    have hoff : colOffset x0 (dispCol (x0 + n)) = n := (eq_dispCol_iff x0 n (by omega) _).mp rfl
    rw [drawRowTo_succ, plot_collision, Bool.or_eq_true, Bool.and_eq_true, ih (by omega),
      drawRowTo_pixel n x0 y row dc (by omega), if_neg (by omega)]
    constructor
    · rintro ((h | ⟨c, hp, hc, hb⟩) | ⟨hp, hb⟩)
      · exact .inl h
      · exact .inr ⟨c, hp, by omega, hb⟩
      · exact .inr ⟨dispCol (x0 + n), hp, by omega, by rw [hoff]; exact hb⟩
    · rintro (h | ⟨c, hp, hc, hb⟩)
      · exact .inl (.inl h)
      · by_cases e : colOffset x0 c = n
        · have hc' : c = dispCol (x0 + n) := (eq_dispCol_iff x0 n (by omega) c).mpr e
          exact .inr ⟨hc' ▸ hp, e ▸ hb⟩
        · exact .inl (.inr ⟨c, hp, by omega, hb⟩)

theorem drawRow_pixel (x0 y : Nat) (row : Byte) (dc : Display × Bool) (r : Fin 32) (c : Fin 64) :
    (drawRow x0 y row dc).1.pixel r c =
      if r = dispRow y ∧ colOffset x0 c < 8 then dc.1.pixel r c ^^ spriteBit row (colOffset x0 c)
      else dc.1.pixel r c :=
  drawRowTo_pixel 8 x0 y row dc (Nat.le_refl 8) r c

theorem drawRow_collision (x0 y : Nat) (row : Byte) (dc : Display × Bool) :
    (drawRow x0 y row dc).2 = true ↔
      dc.2 = true ∨ ∃ c, dc.1.pixel (dispRow y) c = true ∧ colOffset x0 c < 8 ∧
        spriteBit row (colOffset x0 c) = true :=
  drawRowTo_collision 8 x0 y row dc (Nat.le_refl 8)

/-! ### Sprites -/

/-- The sprite's bit on a pixel. -/
def spriteBitAt (x0 y : Nat) (rows : List Byte) (r : Fin 32) (c : Fin 64) : Bool :=
  match rows[rowOffset y r]? with
  | some row => decide (colOffset x0 c < 8) && spriteBit row (colOffset x0 c)
  | none => false

/-- The sprite's bit on a pixel is 1 exactly where the sprite covers it. -/
theorem spriteCovers_iff (x0 y : Nat) (rows : List Byte) (h : rows.length ≤ 32) (r : Fin 32) (c : Fin 64) :
    spriteCovers x0 y rows r c ↔ spriteBitAt x0 y rows r c = true := by
  unfold spriteCovers spriteBitAt
  constructor
  · rintro ⟨j, k, row, hj, hk, hr, hc, hb⟩
    have hjl : j < rows.length := (List.getElem?_eq_some_iff.mp hj).1
    have e1 : rowOffset y r = j := (eq_dispRow_iff y j (by omega) r).mp (Fin.ext hr)
    have e2 : colOffset x0 c = k := (eq_dispCol_iff x0 k (by omega) c).mp (Fin.ext hc)
    rw [e1, e2, hj]
    simp [hk, spriteBit, hb]
  · intro hb
    cases hrow : rows[rowOffset y r]? with
    | none => rw [hrow] at hb; cases hb
    | some row =>
      rw [hrow] at hb
      simp only [Bool.and_eq_true, decide_eq_true_eq] at hb
      have hjl : rowOffset y r < rows.length := (List.getElem?_eq_some_iff.mp hrow).1
      exact ⟨rowOffset y r, colOffset x0 c, row, hrow, hb.1,
        congrArg Fin.val ((eq_dispRow_iff y _ (by omega) r).mpr rfl),
        congrArg Fin.val ((eq_dispCol_iff x0 _ (by omega) c).mpr rfl), hb.2⟩

theorem spriteBitAt_cons (x0 y : Nat) (row : Byte) (rows : List Byte) (r : Fin 32) (c : Fin 64) :
    spriteBitAt x0 y (row :: rows) r c =
      if r = dispRow y then decide (colOffset x0 c < 8) && spriteBit row (colOffset x0 c)
      else spriteBitAt x0 (y + 1) rows r c := by
  unfold spriteBitAt
  by_cases hr : r = dispRow y
  · have e : rowOffset y r = 0 := (eq_dispRow_iff y 0 (by omega) r).mp hr
    rw [if_pos hr, e]
    rfl
  · have e0 : rowOffset y r ≠ 0 := fun e => hr ((eq_dispRow_iff y 0 (by omega) r).mpr e)
    have e : rowOffset y r = rowOffset (y + 1) r + 1 := by
      simp only [rowOffset] at e0 ⊢
      have := r.isLt
      omega
    rw [if_neg hr, e]
    rfl

/-- On the row that a sprite row has just been drawn to, the rows below it have no bit. -/
theorem spriteBitAt_after (x0 y : Nat) (rows : List Byte) (h : rows.length < 32) (c : Fin 64) :
    spriteBitAt x0 (y + 1) rows (dispRow y) c = false := by
  have e : rowOffset (y + 1) (dispRow y) = 31 := by
    simp only [rowOffset, dispRow]
    omega
  unfold spriteBitAt
  rw [e, List.getElem?_eq_none (by omega)]

theorem drawRows_pixel (x0 : Nat) (rows : List Byte) (y : Nat) (dc : Display × Bool) (h : rows.length ≤ 32) (r : Fin 32)
    (c : Fin 64) :
    (drawRows x0 y rows dc).1.pixel r c = (dc.1.pixel r c ^^ spriteBitAt x0 y rows r c) := by
  induction rows generalizing y dc with
  | nil => simp [drawRows, spriteBitAt]
  | cons row rows ih =>
    simp only [List.length_cons] at h
    rw [drawRows, ih _ _ (by omega), drawRow_pixel, spriteBitAt_cons x0 y row rows]
    by_cases hr : r = dispRow y
    · subst hr
      rw [spriteBitAt_after x0 y rows (by omega)]
      by_cases hc : colOffset x0 c < 8 <;> simp [hc]
    · simp [hr]

theorem drawRows_collision (x0 : Nat) (rows : List Byte) (y : Nat) (dc : Display × Bool) (h : rows.length ≤ 32) :
    (drawRows x0 y rows dc).2 = true ↔
      dc.2 = true ∨ ∃ r c, dc.1.pixel r c = true ∧ spriteBitAt x0 y rows r c = true := by
  induction rows generalizing y dc with
  | nil => simp [drawRows, spriteBitAt]
  | cons row rows ih =>
    simp only [List.length_cons] at h
    rw [drawRows, ih _ _ (by omega), drawRow_collision]
    constructor
    · rintro ((h1 | ⟨c, hp, hc, hb⟩) | ⟨r, c, hp, hb⟩)
      · exact .inl h1
      · refine .inr ⟨dispRow y, c, hp, ?_⟩
        simp [spriteBitAt_cons x0 y row rows, hc, hb]
      · have hr : r ≠ dispRow y := by
          rintro rfl
          rw [spriteBitAt_after x0 y rows (by omega)] at hb
          cases hb
        rw [drawRow_pixel, if_neg (fun e => hr e.1)] at hp
        refine .inr ⟨r, c, hp, ?_⟩
        rw [spriteBitAt_cons x0 y row rows, if_neg hr]
        exact hb
    · rintro (h1 | ⟨r, c, hp, hb⟩)
      · exact .inl (.inl h1)
      · rw [spriteBitAt_cons x0 y row rows] at hb
        by_cases hr : r = dispRow y
        · rw [if_pos hr, Bool.and_eq_true, decide_eq_true_eq] at hb
          exact .inl (.inr ⟨c, hr ▸ hp, hb.1, hb.2⟩)
        · rw [if_neg hr] at hb
          refine .inr ⟨r, c, ?_, hb⟩
          rw [drawRow_pixel, if_neg (fun e => hr e.1)]
          exact hp

/-- A sprite has at most 15 rows. -/
theorem length_spriteAtI (s : State) (n : Nibble) : (spriteAtI s n).length ≤ 15 := by
  simp [spriteAtI]
  omega

/-- What `Dxyn` does when its rows are in memory (R182). -/
theorem execDrw_ok (s : State) (x y n : Nibble) (h : n.toNat = 0 ∨ s.effAddr 0 + n.toNat ≤ 4096) :
    execDrw x y n s =
      let out := draw (s.getV x).toNat (s.getV y).toNat (spriteAtI s n) s.disp
      .next ((s.setDisp out.1).setV vf (collisionFlag out.2)) := by
  rcases s.readBytes_cases (s.effAddr 0) n.toNat with ⟨-, e⟩ | ⟨h1, h2, -⟩
  · unfold execDrw
    rw [e]
    rfl
  · omega

/-- A drawn sprite is XORed onto the display (R181). -/
theorem draw_pixel (x0 y0 : Nat) (rows : List Byte) (d : Display) (h : rows.length ≤ 32) (r : Fin 32) (c : Fin 64) :
    (draw x0 y0 rows d).1.pixel r c = (d.pixel r c ^^ spriteBitAt x0 y0 rows r c) :=
  drawRows_pixel x0 rows y0 (d, false) h r c

/-- The collision flag: some pixel was 1 under a sprite bit 1 (R183). -/
theorem draw_collision (x0 y0 : Nat) (rows : List Byte) (d : Display) (h : rows.length ≤ 32) :
    (draw x0 y0 rows d).2 = true ↔ ∃ r c, d.pixel r c = true ∧ spriteBitAt x0 y0 rows r c = true := by
  unfold draw
  rw [drawRows_collision x0 rows y0 (d, false) h]
  simp

end Sys2Proof.Machine
end

