-- ==== Sys2Proof/Laws/Encoding.lean ====
section
/-! SUPPORT. The fields of a word and of an encoded word, and the decoder on each family. -/

namespace Sys2Proof

/-! ### Fields as numbers -/

theorem toNat_append_eq {n m : Nat} (a : BitVec n) (b : BitVec m) : (a ++ b).toNat = a.toNat * 2 ^ m + b.toNat := by
  rw [BitVec.toNat_append, ← Nat.shiftLeft_add_eq_or_of_lt b.isLt, Nat.shiftLeft_eq]

theorem toNat_encodeNnn (f : Nibble) (nnn : Addr) : (encodeNnn f nnn).toNat = f.toNat * 4096 + nnn.toNat :=
  toNat_append_eq f nnn

theorem toNat_encodeXKk (f x : Nibble) (kk : Byte) :
    (encodeXKk f x kk).toNat = f.toNat * 4096 + x.toNat * 256 + kk.toNat :=
  (toNat_append_eq (f ++ x) kk).trans (by rw [toNat_append_eq f x, Nat.add_mul, Nat.mul_assoc]; rfl)

theorem toNat_encodeXYN (f x y n : Nibble) :
    (encodeXYN f x y n).toNat = f.toNat * 4096 + x.toNat * 256 + y.toNat * 16 + n.toNat :=
  (toNat_append_eq (f ++ x) (y ++ n)).trans
    (by rw [toNat_append_eq f x, toNat_append_eq y n, Nat.add_mul, Nat.mul_assoc, Nat.add_assoc, Nat.add_assoc, Nat.add_assoc]; rfl)

theorem toNat_highNibble (w : Word) : (highNibble w).toNat = w.toNat / 4096 := by
  simp only [highNibble, BitVec.extractLsb'_toNat, Nat.shiftRight_eq_div_pow]
  omega

theorem toNat_fieldX (w : Word) : (fieldX w).toNat = w.toNat / 256 % 16 := by
  simp only [fieldX, BitVec.extractLsb'_toNat, Nat.shiftRight_eq_div_pow]

theorem toNat_fieldY (w : Word) : (fieldY w).toNat = w.toNat / 16 % 16 := by
  simp only [fieldY, BitVec.extractLsb'_toNat, Nat.shiftRight_eq_div_pow]

theorem toNat_lowNibble (w : Word) : (lowNibble w).toNat = w.toNat % 16 := by
  simp only [lowNibble, BitVec.extractLsb'_toNat, Nat.shiftRight_eq_div_pow, Nat.pow_zero, Nat.div_one]

theorem toNat_fieldKk (w : Word) : (fieldKk w).toNat = w.toNat % 256 := by
  simp only [fieldKk, BitVec.extractLsb'_toNat, Nat.shiftRight_eq_div_pow, Nat.pow_zero, Nat.div_one]

theorem toNat_fieldNnn (w : Word) : (fieldNnn w).toNat = w.toNat % 4096 := by
  simp only [fieldNnn, BitVec.extractLsb'_toNat, Nat.shiftRight_eq_div_pow, Nat.pow_zero, Nat.div_one]

/-- A word is its bytes, high byte first (R55). -/
theorem toNat_wordOfBytes (hi lo : Byte) : (wordOfBytes hi lo).toNat = hi.toNat * 256 + lo.toNat :=
  toNat_append_eq hi lo

theorem wordOfBytes_bytesOfWord (w : Word) : wordOfBytes (w.extractLsb' 8 8) (w.extractLsb' 0 8) = w := by
  apply BitVec.eq_of_toNat_eq
  simp only [toNat_wordOfBytes, BitVec.extractLsb'_toNat, Nat.shiftRight_eq_div_pow, Nat.pow_zero, Nat.div_one]
  omega

/-! ### Fields of an encoded word -/

@[simp] theorem highNibble_encodeNnn (f : Nibble) (a : Addr) : highNibble (encodeNnn f a) = f := by
  apply BitVec.eq_of_toNat_eq
  rw [toNat_highNibble, toNat_encodeNnn]
  omega

@[simp] theorem fieldNnn_encodeNnn (f : Nibble) (a : Addr) : fieldNnn (encodeNnn f a) = a := by
  apply BitVec.eq_of_toNat_eq
  rw [toNat_fieldNnn, toNat_encodeNnn]
  omega

@[simp] theorem highNibble_encodeXKk (f x : Nibble) (kk : Byte) : highNibble (encodeXKk f x kk) = f := by
  apply BitVec.eq_of_toNat_eq
  rw [toNat_highNibble, toNat_encodeXKk]
  omega

@[simp] theorem fieldX_encodeXKk (f x : Nibble) (kk : Byte) : fieldX (encodeXKk f x kk) = x := by
  apply BitVec.eq_of_toNat_eq
  rw [toNat_fieldX, toNat_encodeXKk]
  omega

@[simp] theorem fieldKk_encodeXKk (f x : Nibble) (kk : Byte) : fieldKk (encodeXKk f x kk) = kk := by
  apply BitVec.eq_of_toNat_eq
  rw [toNat_fieldKk, toNat_encodeXKk]
  omega

@[simp] theorem highNibble_encodeXYN (f x y n : Nibble) : highNibble (encodeXYN f x y n) = f := by
  apply BitVec.eq_of_toNat_eq
  rw [toNat_highNibble, toNat_encodeXYN]
  omega

@[simp] theorem fieldX_encodeXYN (f x y n : Nibble) : fieldX (encodeXYN f x y n) = x := by
  apply BitVec.eq_of_toNat_eq
  rw [toNat_fieldX, toNat_encodeXYN]
  omega

@[simp] theorem fieldY_encodeXYN (f x y n : Nibble) : fieldY (encodeXYN f x y n) = y := by
  apply BitVec.eq_of_toNat_eq
  rw [toNat_fieldY, toNat_encodeXYN]
  omega

@[simp] theorem lowNibble_encodeXYN (f x y n : Nibble) : lowNibble (encodeXYN f x y n) = n := by
  apply BitVec.eq_of_toNat_eq
  rw [toNat_lowNibble, toNat_encodeXYN]
  omega

/-! ### Words from their fields -/

theorem encodeNnn_fields (w : Word) : encodeNnn (highNibble w) (fieldNnn w) = w := by
  apply BitVec.eq_of_toNat_eq
  rw [toNat_encodeNnn, toNat_highNibble, toNat_fieldNnn]
  omega

theorem encodeXKk_fields (w : Word) : encodeXKk (highNibble w) (fieldX w) (fieldKk w) = w := by
  apply BitVec.eq_of_toNat_eq
  rw [toNat_encodeXKk, toNat_highNibble, toNat_fieldX, toNat_fieldKk]
  omega

theorem encodeXYN_fields (w : Word) : encodeXYN (highNibble w) (fieldX w) (fieldY w) (lowNibble w) = w := by
  apply BitVec.eq_of_toNat_eq
  rw [toNat_encodeXYN, toNat_highNibble, toNat_fieldX, toNat_fieldY, toNat_lowNibble]
  omega

/-! ### The decoder by family -/

/-- A nibble is one of its 16 values. -/
theorem nibble_cases : ∀ f : Nibble, f = 0x0#4 ∨ f = 0x1#4 ∨ f = 0x2#4 ∨ f = 0x3#4 ∨ f = 0x4#4 ∨ f = 0x5#4 ∨ f = 0x6#4 ∨
    f = 0x7#4 ∨ f = 0x8#4 ∨ f = 0x9#4 ∨ f = 0xA#4 ∨ f = 0xB#4 ∨ f = 0xC#4 ∨ f = 0xD#4 ∨ f = 0xE#4 ∨ f = 0xF#4 := by
  decide

section Families

variable {w : Word}

theorem decode_family_0 (h : highNibble w = 0x0#4) : decode w = .ok (decodeFamily0 w) := by
  simp [decode, h]

theorem decode_family_1 (h : highNibble w = 0x1#4) : decode w = .ok (.jp (fieldNnn w)) := by
  simp [decode, h]

theorem decode_family_2 (h : highNibble w = 0x2#4) : decode w = .ok (.call (fieldNnn w)) := by
  simp [decode, h]

theorem decode_family_3 (h : highNibble w = 0x3#4) : decode w = .ok (.seVxKk (fieldX w) (fieldKk w)) := by
  simp [decode, h]

theorem decode_family_4 (h : highNibble w = 0x4#4) : decode w = .ok (.sneVxKk (fieldX w) (fieldKk w)) := by
  simp [decode, h]

theorem decode_family_5 (h : highNibble w = 0x5#4) : decode w = if lowNibble w = 0x0#4 then .ok (.seVxVy (fieldX w) (fieldY w)) else .error (.invalidOpcode w) := by
  simp [decode, h]

theorem decode_family_6 (h : highNibble w = 0x6#4) : decode w = .ok (.ldVxKk (fieldX w) (fieldKk w)) := by
  simp [decode, h]

theorem decode_family_7 (h : highNibble w = 0x7#4) : decode w = .ok (.addVxKk (fieldX w) (fieldKk w)) := by
  simp [decode, h]

theorem decode_family_8 (h : highNibble w = 0x8#4) : decode w = decodeFamily8 w := by
  simp [decode, h]

theorem decode_family_9 (h : highNibble w = 0x9#4) : decode w = if lowNibble w = 0x0#4 then .ok (.sneVxVy (fieldX w) (fieldY w)) else .error (.invalidOpcode w) := by
  simp [decode, h]

theorem decode_family_A (h : highNibble w = 0xA#4) : decode w = .ok (.ldINnn (fieldNnn w)) := by
  simp [decode, h]

theorem decode_family_B (h : highNibble w = 0xB#4) : decode w = .ok (.jpV0 (fieldNnn w)) := by
  simp [decode, h]

theorem decode_family_C (h : highNibble w = 0xC#4) : decode w = .ok (.rnd (fieldX w) (fieldKk w)) := by
  simp [decode, h]

theorem decode_family_D (h : highNibble w = 0xD#4) : decode w = .ok (.drw (fieldX w) (fieldY w) (lowNibble w)) := by
  simp [decode, h]

theorem decode_family_E (h : highNibble w = 0xE#4) : decode w = decodeFamilyE w := by
  simp [decode, h]

theorem decode_family_F (h : highNibble w = 0xF#4) : decode w = decodeFamilyF w := by
  simp [decode, h]

end Families

/-- A word the decoder refuses is refused by its own name (R75). -/
theorem decode_error_eq {w : Word} {e : DecodeError} (h : decode w = .error e) : e = .invalidOpcode w := by
  rcases nibble_cases (highNibble w) with f | f | f | f | f | f | f | f | f | f | f | f | f | f | f | f
  · rw [decode_family_0 f] at h; cases h
  · rw [decode_family_1 f] at h; cases h
  · rw [decode_family_2 f] at h; cases h
  · rw [decode_family_3 f] at h; cases h
  · rw [decode_family_4 f] at h; cases h
  · rw [decode_family_5 f] at h; split at h <;> cases h; rfl
  · rw [decode_family_6 f] at h; cases h
  · rw [decode_family_7 f] at h; cases h
  · rw [decode_family_8 f] at h
    unfold decodeFamily8 at h
    simp only at h
    split_ifs at h
    cases h
    rfl
  · rw [decode_family_9 f] at h; split at h <;> cases h; rfl
  · rw [decode_family_A f] at h; cases h
  · rw [decode_family_B f] at h; cases h
  · rw [decode_family_C f] at h; cases h
  · rw [decode_family_D f] at h; cases h
  · rw [decode_family_E f] at h
    unfold decodeFamilyE at h
    simp only at h
    split_ifs at h
    cases h
    rfl
  · rw [decode_family_F f] at h
    unfold decodeFamilyF at h
    simp only at h
    split_ifs at h
    cases h
    rfl

end Sys2Proof
end

