-- ==== Sys2Proof/Laws/PerInstr.lean ====
section
/-! SUPPORT. Per instruction: its word decodes to it (R72, R74). -/

namespace Sys2Proof.Laws.RoundTrip

/-- A well-formed instruction's word decodes to the instruction, every operand kept. -/
def Statement (i : Instr) : Prop := i.wf = true → decode (encode i) = .ok i

theorem cls : Statement .cls := fun _ => rfl

theorem ret : Statement .ret := fun _ => rfl

theorem sys (nnn : Addr) : Statement (.sys nnn) := by
  intro h
  simp only [Instr.wf, Bool.and_eq_true, bne_iff_ne] at h
  have e1 : encodeNnn 0x0#4 nnn ≠ 0x00E0#16 := fun e => h.1 ((fieldNnn_encodeNnn 0x0#4 nnn).symm.trans (congrArg fieldNnn e))
  have e2 : encodeNnn 0x0#4 nnn ≠ 0x00EE#16 := fun e => h.2 ((fieldNnn_encodeNnn 0x0#4 nnn).symm.trans (congrArg fieldNnn e))
  simp [decode, decodeFamily0, encode, e1, e2]

theorem jp (nnn : Addr) : Statement (.jp nnn) := fun _ => by simp [decode, encode]

theorem call (nnn : Addr) : Statement (.call nnn) := fun _ => by simp [decode, encode]

theorem seVxKk (x : Nibble) (kk : Byte) : Statement (.seVxKk x kk) := fun _ => by simp [decode, encode]

theorem sneVxKk (x : Nibble) (kk : Byte) : Statement (.sneVxKk x kk) := fun _ => by simp [decode, encode]

theorem seVxVy (x : Nibble) (y : Nibble) : Statement (.seVxVy x y) := fun _ => by simp [decode, encode]

theorem ldVxKk (x : Nibble) (kk : Byte) : Statement (.ldVxKk x kk) := fun _ => by simp [decode, encode]

theorem addVxKk (x : Nibble) (kk : Byte) : Statement (.addVxKk x kk) := fun _ => by simp [decode, encode]

theorem ldVxVy (x : Nibble) (y : Nibble) : Statement (.ldVxVy x y) := fun _ => by simp [decode, decodeFamily8, encode]

theorem or (x : Nibble) (y : Nibble) : Statement (.or x y) := fun _ => by simp [decode, decodeFamily8, encode]

theorem and (x : Nibble) (y : Nibble) : Statement (.and x y) := fun _ => by simp [decode, decodeFamily8, encode]

theorem xor (x : Nibble) (y : Nibble) : Statement (.xor x y) := fun _ => by simp [decode, decodeFamily8, encode]

theorem addVxVy (x : Nibble) (y : Nibble) : Statement (.addVxVy x y) := fun _ => by simp [decode, decodeFamily8, encode]

theorem sub (x : Nibble) (y : Nibble) : Statement (.sub x y) := fun _ => by simp [decode, decodeFamily8, encode]

theorem shr (x : Nibble) (y : Nibble) : Statement (.shr x y) := fun _ => by simp [decode, decodeFamily8, encode]

theorem subn (x : Nibble) (y : Nibble) : Statement (.subn x y) := fun _ => by simp [decode, decodeFamily8, encode]

theorem shl (x : Nibble) (y : Nibble) : Statement (.shl x y) := fun _ => by simp [decode, decodeFamily8, encode]

theorem sneVxVy (x : Nibble) (y : Nibble) : Statement (.sneVxVy x y) := fun _ => by simp [decode, encode]

theorem ldINnn (nnn : Addr) : Statement (.ldINnn nnn) := fun _ => by simp [decode, encode]

theorem jpV0 (nnn : Addr) : Statement (.jpV0 nnn) := fun _ => by simp [decode, encode]

theorem rnd (x : Nibble) (kk : Byte) : Statement (.rnd x kk) := fun _ => by simp [decode, encode]

theorem drw (x : Nibble) (y : Nibble) (n : Nibble) : Statement (.drw x y n) := fun _ => by simp [decode, encode]

theorem skp (x : Nibble) : Statement (.skp x) := fun _ => by simp [decode, decodeFamilyE, encode]

theorem sknp (x : Nibble) : Statement (.sknp x) := fun _ => by simp [decode, decodeFamilyE, encode]

theorem ldVxDt (x : Nibble) : Statement (.ldVxDt x) := fun _ => by simp [decode, decodeFamilyF, encode]

theorem ldVxK (x : Nibble) : Statement (.ldVxK x) := fun _ => by simp [decode, decodeFamilyF, encode]

theorem ldDtVx (x : Nibble) : Statement (.ldDtVx x) := fun _ => by simp [decode, decodeFamilyF, encode]

theorem ldStVx (x : Nibble) : Statement (.ldStVx x) := fun _ => by simp [decode, decodeFamilyF, encode]

theorem addIVx (x : Nibble) : Statement (.addIVx x) := fun _ => by simp [decode, decodeFamilyF, encode]

theorem ldFVx (x : Nibble) : Statement (.ldFVx x) := fun _ => by simp [decode, decodeFamilyF, encode]

theorem ldBVx (x : Nibble) : Statement (.ldBVx x) := fun _ => by simp [decode, decodeFamilyF, encode]

theorem ldMiVx (x : Nibble) : Statement (.ldMiVx x) := fun _ => by simp [decode, decodeFamilyF, encode]

theorem ldVxMi (x : Nibble) : Statement (.ldVxMi x) := fun _ => by simp [decode, decodeFamilyF, encode]

end Sys2Proof.Laws.RoundTrip
end

