-- ==== Sys2Proof/Laws/Step.lean ====
section
/-! SUPPORT. What the end of a cycle, a dispatch step and a step can do, said once. -/

namespace Sys2Proof.Machine

/-! ### The end of a cycle leaves everything but timers, keys, dirty flag, status and the draws -/

@[simp] theorem State.tickAndSample_mem (s : State) (inp : CycleInput) : (s.tickAndSample inp).mem = s.mem := by
  unfold State.tickAndSample State.inputSample
  split <;> split <;> (try split) <;> rfl

@[simp] theorem State.maybeRender_mem (s : State) (inp : CycleInput) : (s.maybeRender inp).mem = s.mem := by
  unfold State.maybeRender
  split <;> (try split) <;> rfl

@[simp] theorem State.endCycle_mem (s : State) (inp : CycleInput) : (s.endCycle inp).mem = s.mem := by
  unfold State.endCycle
  split <;> simp

@[simp] theorem State.tickAndSample_v (s : State) (inp : CycleInput) : (s.tickAndSample inp).v = s.v := by
  unfold State.tickAndSample State.inputSample
  split <;> split <;> (try split) <;> rfl

@[simp] theorem State.maybeRender_v (s : State) (inp : CycleInput) : (s.maybeRender inp).v = s.v := by
  unfold State.maybeRender
  split <;> (try split) <;> rfl

@[simp] theorem State.endCycle_v (s : State) (inp : CycleInput) : (s.endCycle inp).v = s.v := by
  unfold State.endCycle
  split <;> simp

@[simp] theorem State.tickAndSample_i (s : State) (inp : CycleInput) : (s.tickAndSample inp).i = s.i := by
  unfold State.tickAndSample State.inputSample
  split <;> split <;> (try split) <;> rfl

@[simp] theorem State.maybeRender_i (s : State) (inp : CycleInput) : (s.maybeRender inp).i = s.i := by
  unfold State.maybeRender
  split <;> (try split) <;> rfl

@[simp] theorem State.endCycle_i (s : State) (inp : CycleInput) : (s.endCycle inp).i = s.i := by
  unfold State.endCycle
  split <;> simp

@[simp] theorem State.tickAndSample_pc (s : State) (inp : CycleInput) : (s.tickAndSample inp).pc = s.pc := by
  unfold State.tickAndSample State.inputSample
  split <;> split <;> (try split) <;> rfl

@[simp] theorem State.maybeRender_pc (s : State) (inp : CycleInput) : (s.maybeRender inp).pc = s.pc := by
  unfold State.maybeRender
  split <;> (try split) <;> rfl

@[simp] theorem State.endCycle_pc (s : State) (inp : CycleInput) : (s.endCycle inp).pc = s.pc := by
  unfold State.endCycle
  split <;> simp

@[simp] theorem State.tickAndSample_sp (s : State) (inp : CycleInput) : (s.tickAndSample inp).sp = s.sp := by
  unfold State.tickAndSample State.inputSample
  split <;> split <;> (try split) <;> rfl

@[simp] theorem State.maybeRender_sp (s : State) (inp : CycleInput) : (s.maybeRender inp).sp = s.sp := by
  unfold State.maybeRender
  split <;> (try split) <;> rfl

@[simp] theorem State.endCycle_sp (s : State) (inp : CycleInput) : (s.endCycle inp).sp = s.sp := by
  unfold State.endCycle
  split <;> simp

@[simp] theorem State.tickAndSample_stack (s : State) (inp : CycleInput) : (s.tickAndSample inp).stack = s.stack := by
  unfold State.tickAndSample State.inputSample
  split <;> split <;> (try split) <;> rfl

@[simp] theorem State.maybeRender_stack (s : State) (inp : CycleInput) : (s.maybeRender inp).stack = s.stack := by
  unfold State.maybeRender
  split <;> (try split) <;> rfl

@[simp] theorem State.endCycle_stack (s : State) (inp : CycleInput) : (s.endCycle inp).stack = s.stack := by
  unfold State.endCycle
  split <;> simp

@[simp] theorem State.tickAndSample_disp (s : State) (inp : CycleInput) : (s.tickAndSample inp).disp = s.disp := by
  unfold State.tickAndSample State.inputSample
  split <;> split <;> (try split) <;> rfl

@[simp] theorem State.maybeRender_disp (s : State) (inp : CycleInput) : (s.maybeRender inp).disp = s.disp := by
  unfold State.maybeRender
  split <;> (try split) <;> rfl

@[simp] theorem State.endCycle_disp (s : State) (inp : CycleInput) : (s.endCycle inp).disp = s.disp := by
  unfold State.endCycle
  split <;> simp

@[simp] theorem State.tickAndSample_rngState (s : State) (inp : CycleInput) : (s.tickAndSample inp).rngState = s.rngState := by
  unfold State.tickAndSample State.inputSample
  split <;> split <;> (try split) <;> rfl

@[simp] theorem State.maybeRender_rngState (s : State) (inp : CycleInput) : (s.maybeRender inp).rngState = s.rngState := by
  unfold State.maybeRender
  split <;> (try split) <;> rfl

@[simp] theorem State.endCycle_rngState (s : State) (inp : CycleInput) : (s.endCycle inp).rngState = s.rngState := by
  unfold State.endCycle
  split <;> simp

@[simp] theorem State.tickAndSample_rngInc (s : State) (inp : CycleInput) : (s.tickAndSample inp).rngInc = s.rngInc := by
  unfold State.tickAndSample State.inputSample
  split <;> split <;> (try split) <;> rfl

@[simp] theorem State.maybeRender_rngInc (s : State) (inp : CycleInput) : (s.maybeRender inp).rngInc = s.rngInc := by
  unfold State.maybeRender
  split <;> (try split) <;> rfl

@[simp] theorem State.endCycle_rngInc (s : State) (inp : CycleInput) : (s.endCycle inp).rngInc = s.rngInc := by
  unfold State.endCycle
  split <;> simp

@[simp] theorem State.tickAndSample_programSize (s : State) (inp : CycleInput) : (s.tickAndSample inp).programSize = s.programSize := by
  unfold State.tickAndSample State.inputSample
  split <;> split <;> (try split) <;> rfl

@[simp] theorem State.maybeRender_programSize (s : State) (inp : CycleInput) : (s.maybeRender inp).programSize = s.programSize := by
  unfold State.maybeRender
  split <;> (try split) <;> rfl

@[simp] theorem State.endCycle_programSize (s : State) (inp : CycleInput) : (s.endCycle inp).programSize = s.programSize := by
  unfold State.endCycle
  split <;> simp

@[simp] theorem State.tickAndSample_shlFlagMode (s : State) (inp : CycleInput) : (s.tickAndSample inp).shlFlagMode = s.shlFlagMode := by
  unfold State.tickAndSample State.inputSample
  split <;> split <;> (try split) <;> rfl

@[simp] theorem State.maybeRender_shlFlagMode (s : State) (inp : CycleInput) : (s.maybeRender inp).shlFlagMode = s.shlFlagMode := by
  unfold State.maybeRender
  split <;> (try split) <;> rfl

@[simp] theorem State.endCycle_shlFlagMode (s : State) (inp : CycleInput) : (s.endCycle inp).shlFlagMode = s.shlFlagMode := by
  unfold State.endCycle
  split <;> simp

/-- A cycle whose dispatch step ended the run has no event after it (R94). -/
theorem State.endCycle_halted (t : State) (inp : CycleInput) {r : HaltReason} (h : t.status = .halted r) :
    t.endCycle inp = t := by
  simp [State.endCycle, h]

/-- A cycle that is still running after its dispatch step has its events, in order, and uses up its draw (R95). -/
theorem State.endCycle_running (t : State) (inp : CycleInput) (h : t.status = .running) :
    t.endCycle inp = ((t.tickAndSample inp).maybeRender inp).nextInput := by
  simp [State.endCycle, h]

/-- Every instruction answers a next state: a fatal error is one, too (log 1). -/
theorem exec_next (i : Instr) (s : State) : ∃ t, exec i s = .next t := by
  cases i
  case ret => rcases s.pop_cases with ⟨-, h⟩ | ⟨-, h⟩ <;> simp [exec, execRet, h]
  case call nnn => rcases s.push_cases s.pc with ⟨-, h⟩ | ⟨-, h⟩ <;> simp [exec, execCall, h]
  case drw x y n => cases h : s.readBytes (s.effAddr 0) n.toNat <;> simp [exec, execDrw, h]
  case ldVxK x => cases h : lowestKey s.latch <;> simp [exec, execLdVxK, h]
  all_goals exact ⟨_, rfl⟩

/-- What a dispatch step can do (R91). -/
theorem dispatch_cases {s t : State} (h : dispatch s = .next t) :
    (∃ bad, s.fetch = .error bad ∧ t = s.halt (.outOfBounds s.pc bad)) ∨
    (∃ w e, s.fetch = .ok w ∧ decode w = .error e ∧ t = s.advance.halt (.invalidOpcode s.pc w)) ∨
    (∃ w i, s.fetch = .ok w ∧ decode w = .ok i ∧ exec i s.advance = .next t) := by
  unfold dispatch at h
  split at h
  · next bad hf => exact .inl ⟨bad, hf, by cases h; rfl⟩
  · next w hf =>
    split at h
    · next e hd => exact .inr (.inl ⟨w, e, hf, hd, by cases h; rfl⟩)
    · next i hd => exact .inr (.inr ⟨w, i, hf, hd, h⟩)

/-- A dispatch step always answers a next state. -/
theorem dispatch_next (s : State) : ∃ t, dispatch s = .next t := by
  unfold dispatch
  split
  · exact ⟨_, rfl⟩
  · split
    · exact ⟨_, rfl⟩
    · exact exec_next _ _

/-- What a step can do (R95, R96). -/
theorem step_cases {s u : State} (h : step s = .next u) :
    s.status = .running ∧
      ((s.endAddr ≤ s.pc.toNat ∧ u = s.halt (.programEnd s.pc)) ∨
       (s.pc.toNat < s.endAddr ∧ ∃ t, dispatch s = .next t ∧ u = t.endCycle s.input)) := by
  unfold step runCycle at h
  split at h
  · cases h
  · next hr =>
    refine ⟨hr, ?_⟩
    split at h
    · next he => exact .inl ⟨he, by cases h; rfl⟩
    · next he =>
      obtain ⟨t, ht⟩ := dispatch_next s
      rw [ht] at h
      exact .inr ⟨Nat.not_le.mp he, t, ht, by cases h; rfl⟩

/-- A running machine inside its program makes its dispatch step and its events. -/
theorem step_running {s t : State} (hr : s.status = .running) (he : s.pc.toNat < s.endAddr) (ht : dispatch s = .next t) :
    step s = .next (t.endCycle s.input) := by
  simp [step, runCycle, hr, Nat.not_le.mpr he, ht]

/-- The dispatch step on a word that decodes. -/
theorem dispatch_ok {s : State} {w : Word} {i : Instr} (hf : s.fetch = .ok w) (hd : decode w = .ok i) :
    dispatch s = exec i s.advance := by
  simp [dispatch, hf, hd]

/-- The fetch inside memory (R58). -/
theorem State.fetch_ok (s : State) (h : s.pc.toNat + 1 < 4096) :
    s.fetch = .ok (wordOfBytes (s.mem.read s.pc.toNat) (s.mem.read (s.pc.toNat + 1))) :=
  s.memReadWord_ok h

/-- The fetch at 0xFFF or beyond (R58). -/
theorem State.fetch_error (s : State) (h : 4096 ≤ s.pc.toNat + 1) : s.fetch = .error (max s.pc.toNat 4096) :=
  s.memReadWord_error h

/-- The end of a cycle changes nothing a fetch reads (R65). -/
@[simp] theorem State.endCycle_fetch (t : State) (inp : CycleInput) : (t.endCycle inp).fetch = t.fetch := by
  simp [State.fetch, State.memReadWord, State.memRead]

end Sys2Proof.Machine
end

