-- ==== Sys2Proof/Tests/Slice0.lean ====
section
/-! SUPPORT. Tests of one step each, with expected results taken from spec/95_test_vectors.md (the vector's name stands in
each docstring) or worked out by hand from the rule cited, and for every statement with hypotheses a witness that meets
them. -/

namespace Sys2Proof.Tests

open Sys2Proof Sys2Proof.Machine

/-! ### Building states -/

/-- The start state of the vectors: END = 0x1000, every input of the cycle false, one word placed at PC. -/
def start (w : Nat) : State :=
  ({ State.reset with programSize := 3584, inputs := [CycleInput.quiet] }).withFetchWord 16 w

/-- Registers set one after another. -/
def regs (l : List (Nibble × Byte)) (s : State) : State := l.foldl (fun t e => t.setV e.1 e.2) s

/-- Bytes of memory set from an address on. -/
def bytes (a : Nat) (l : List Byte) (s : State) : State := { s with mem := s.mem.writeAll a l }

/-- One step, if it answers a next state. -/
def run (s : State) : Option State :=
  match step s with
  | .next t => some t
  | .fault _ => none
  | .refused _ => none

/-- A tick in this cycle. -/
def ticking (s : State) : State := { s with inputs := [{ CycleInput.quiet with tick := true }] }

/-- A sample in this cycle, with the keys down and the termination key. -/
def sampling (down : KeySet) (term : Bool) (s : State) : State :=
  { s with inputs := [{ CycleInput.quiet with sample := true, down := down, term := term }] }

/-! ### WellFormed: each check refuses an ill-formed term (R72, R111) -/

theorem test_wf_sys_cls : (Instr.sys 0x0E0#12).wf = false := by decide
theorem test_wf_sys_ret : (Instr.sys 0x0EE#12).wf = false := by decide
theorem test_wf_sys_other : (Instr.sys 0x0E1#12).wf = true := by decide

/-! ### Decoding: a word per constructor, written out from the fields of R71 and the patterns of R74 -/

/-- Families 0 to 2 (2.9 of the vectors). -/
theorem test_decode_jumps :
    decode 0x00E0#16 = .ok .cls ∧ decode 0x00EE#16 = .ok .ret ∧ decode 0x00E1#16 = .ok (.sys 0x0E1#12) ∧
    decode 0x0000#16 = .ok (.sys 0x000#12) ∧ decode 0x10E0#16 = .ok (.jp 0x0E0#12) ∧
    decode 0x2208#16 = .ok (.call 0x208#12) := by decide

/-- Families 3 to 7 and 9: `0011 0011 0100 0010` is x = 3, kk = 0x42. -/
theorem test_decode_skips_and_loads :
    decode 0b0011_0011_0100_0010#16 = .ok (.seVxKk 0x3#4 0x42#8) ∧
    decode 0b0100_0011_0100_0010#16 = .ok (.sneVxKk 0x3#4 0x42#8) ∧
    decode 0b0101_0001_0010_0000#16 = .ok (.seVxVy 0x1#4 0x2#4) ∧
    decode 0b1001_0001_0010_0000#16 = .ok (.sneVxVy 0x1#4 0x2#4) ∧
    decode 0b0110_1010_0010_1111#16 = .ok (.ldVxKk 0xA#4 0x2F#8) ∧
    decode 0b0111_0010_0000_0001#16 = .ok (.addVxKk 0x2#4 0x01#8) := by decide

/-- Family 8. -/
theorem test_decode_alu :
    decode 0x8120#16 = .ok (.ldVxVy 0x1#4 0x2#4) ∧ decode 0x8341#16 = .ok (.or 0x3#4 0x4#4) ∧
    decode 0x8562#16 = .ok (.and 0x5#4 0x6#4) ∧ decode 0x8783#16 = .ok (.xor 0x7#4 0x8#4) ∧
    decode 0x89A4#16 = .ok (.addVxVy 0x9#4 0xA#4) ∧ decode 0x8BC5#16 = .ok (.sub 0xB#4 0xC#4) ∧
    decode 0x81F6#16 = .ok (.shr 0x1#4 0xF#4) ∧ decode 0x8DE7#16 = .ok (.subn 0xD#4 0xE#4) ∧
    decode 0x8F0E#16 = .ok (.shl 0xF#4 0x0#4) := by decide

/-- Families A to D. -/
theorem test_decode_index_draw :
    decode 0xA2F0#16 = .ok (.ldINnn 0x2F0#12) ∧ decode 0xB300#16 = .ok (.jpV0 0x300#12) ∧
    decode 0xC00F#16 = .ok (.rnd 0x0#4 0x0F#8) ∧ decode 0xD125#16 = .ok (.drw 0x1#4 0x2#4 0x5#4) := by decide

/-- Families E and F. -/
theorem test_decode_misc :
    decode 0xE09E#16 = .ok (.skp 0x0#4) ∧ decode 0xE0A1#16 = .ok (.sknp 0x0#4) ∧
    decode 0xF307#16 = .ok (.ldVxDt 0x3#4) ∧ decode 0xF20A#16 = .ok (.ldVxK 0x2#4) ∧
    decode 0xF015#16 = .ok (.ldDtVx 0x0#4) ∧ decode 0xF018#16 = .ok (.ldStVx 0x0#4) ∧
    decode 0xF41E#16 = .ok (.addIVx 0x4#4) ∧ decode 0xF029#16 = .ok (.ldFVx 0x0#4) ∧
    decode 0xF733#16 = .ok (.ldBVx 0x7#4) ∧ decode 0xF355#16 = .ok (.ldMiVx 0x3#4) ∧
    decode 0xFF65#16 = .ok (.ldVxMi 0xF#4) := by decide

/-- The invalid words of 2.9. -/
theorem test_decode_invalid :
    decode 0x5121#16 = .error (.invalidOpcode 0x5121#16) ∧ decode 0x8128#16 = .error (.invalidOpcode 0x8128#16) ∧
    decode 0x812F#16 = .error (.invalidOpcode 0x812F#16) ∧ decode 0x9121#16 = .error (.invalidOpcode 0x9121#16) ∧
    decode 0xE09F#16 = .error (.invalidOpcode 0xE09F#16) ∧ decode 0xF008#16 = .error (.invalidOpcode 0xF008#16) ∧
    decode 0xF030#16 = .error (.invalidOpcode 0xF030#16) ∧ decode 0xF0FF#16 = .error (.invalidOpcode 0xF0FF#16) := by
  decide

/-- Bytes: high byte first, the rest handed on, and one byte is no instruction (R55, R70, R78). -/
theorem test_decode_bytes :
    decodeBytes [0x12#8, 0x08#8, 0xFF#8] = .ok (.jp 0x208#12, [0xFF#8]) ∧
    decodeBytes [0x12#8] = .error .truncated := by decide

/-- The encoder on the same words. -/
theorem test_encode :
    encode .cls = 0x00E0#16 ∧ encode (.sys 0x0E1#12) = 0x00E1#16 ∧ encode (.seVxKk 0x3#4 0x42#8) = 0x3342#16 ∧
    encode (.shr 0x1#4 0xF#4) = 0x81F6#16 ∧ encode (.drw 0x1#4 0x2#4 0x5#4) = 0xD125#16 ∧
    encode (.ldVxMi 0xF#4) = 0xFF65#16 := by decide

/-! ### Control transfer and skips (2.1) -/

/-- C1. -/
theorem test_ret :
    (run ({ start 0x00EE with sp := 1, stack := State.reset.stack.set 0 0x206#16 })).map
      (fun t => (t.pc, t.sp, t.status)) = some (0x206#16, 0, .running) := by decide

/-- C2. -/
theorem test_ret_underflow :
    (run (start 0x00EE)).map (fun t => t.status) = some (.halted (.stackUnderflow 0x200#16)) := by decide

/-- C5. -/
theorem test_sys : (run (start 0x00E1)).map (fun t => t.pc) = some 0x0E1#16 := by decide

/-- C7. -/
theorem test_jp : (run (start 0x1208)).map (fun t => (t.pc, t.sp)) = some (0x208#16, 0) := by decide

/-- C10. -/
theorem test_call :
    (run { start 0x2208 with sp := 15 }).map (fun t => (t.pc, t.sp, t.stack[15])) =
      some (0x208#16, 16, 0x202#16) := by decide

/-- C11. -/
theorem test_call_overflow :
    (run { start 0x2208 with sp := 16 }).map (fun t => t.status) = some (.halted (.stackOverflow 0x200#16)) := by decide

/-- C12, C13. -/
theorem test_se_kk :
    (run (regs [(0x3#4, 0x42#8)] (start 0x3342))).map (fun t => t.pc) = some 0x204#16 ∧
    (run (regs [(0x3#4, 0x41#8)] (start 0x3342))).map (fun t => t.pc) = some 0x202#16 := by decide

/-- C14, C15. -/
theorem test_sne_kk :
    (run (regs [(0x3#4, 0x41#8)] (start 0x4342))).map (fun t => t.pc) = some 0x204#16 ∧
    (run (regs [(0x3#4, 0x42#8)] (start 0x4342))).map (fun t => t.pc) = some 0x202#16 := by decide

/-- C16, C17. -/
theorem test_se_vy :
    (run (regs [(0x1#4, 7#8), (0x2#4, 7#8)] (start 0x5120))).map (fun t => t.pc) = some 0x204#16 ∧
    (run (regs [(0x1#4, 7#8), (0x2#4, 8#8)] (start 0x5120))).map (fun t => t.pc) = some 0x202#16 := by decide

/-- C20, C21. -/
theorem test_sne_vy :
    (run (regs [(0x1#4, 7#8), (0x2#4, 8#8)] (start 0x9120))).map (fun t => t.pc) = some 0x204#16 ∧
    (run (regs [(0x1#4, 7#8), (0x2#4, 7#8)] (start 0x9120))).map (fun t => t.pc) = some 0x202#16 := by decide

/-- C25: no masking. -/
theorem test_jp_v0 : (run (regs [(0x0#4, 0xFF#8)] (start 0xBFFF))).map (fun t => t.pc) = some 0x10FE#16 := by decide

/-! ### Loads, ALU and flags (2.2, 2.3) -/

/-- A1. -/
theorem test_ld_kk : (run (start 0x6A2F)).map (fun t => (t.getV 0xA#4, t.pc)) = some (0x2F#8, 0x202#16) := by decide

/-- A2. -/
theorem test_add_kk :
    (run (regs [(0x2#4, 0xFF#8), (vf, 0x55#8)] (start 0x7201))).map (fun t => (t.getV 0x2#4, t.getV vf)) =
      some (0x00#8, 0x55#8) := by decide

/-- A4. -/
theorem test_ld_vy :
    (run (regs [(0x1#4, 0x33#8)] (start 0x8010))).map (fun t => (t.getV 0x0#4, t.getV 0x1#4)) =
      some (0x33#8, 0x33#8) := by decide

/-- A5. -/
theorem test_or :
    (run (regs [(0x0#4, 0x0F#8), (0x1#4, 0xF0#8), (vf, 0x77#8)] (start 0x8011))).map
      (fun t => (t.getV 0x0#4, t.getV vf)) = some (0xFF#8, 0x77#8) := by decide

/-- A6. -/
theorem test_and :
    (run (regs [(0x0#4, 0x3C#8), (0x1#4, 0x0F#8), (vf, 0x77#8)] (start 0x8012))).map
      (fun t => (t.getV 0x0#4, t.getV vf)) = some (0x0C#8, 0x77#8) := by decide

/-- A7. -/
theorem test_xor :
    (run (regs [(0x0#4, 0x3C#8), (0x1#4, 0x0F#8)] (start 0x8013))).map (fun t => t.getV 0x0#4) = some 0x33#8 := by decide

/-- A8, A9. -/
theorem test_add_vy :
    (run (regs [(0x0#4, 0xFF#8), (0x1#4, 0x01#8)] (start 0x8014))).map (fun t => (t.getV 0x0#4, t.getV vf)) =
      some (0x00#8, 1#8) ∧
    (run (regs [(0x0#4, 0x01#8), (0x1#4, 0x01#8), (vf, 1#8)] (start 0x8014))).map
      (fun t => (t.getV 0x0#4, t.getV vf)) = some (0x02#8, 0#8) := by decide

/-- F1, F3. -/
theorem test_add_vf_operand :
    (run (regs [(vf, 0xFF#8), (0x1#4, 0x01#8)] (start 0x8F14))).map (fun t => t.getV vf) = some 0x00#8 ∧
    (run (regs [(0x0#4, 0xFF#8), (vf, 0x01#8)] (start 0x80F4))).map (fun t => (t.getV 0x0#4, t.getV vf)) =
      some (0x00#8, 1#8) := by decide

/-- A13, A14. -/
theorem test_sub :
    (run (regs [(0x0#4, 0x03#8), (0x1#4, 0x05#8), (vf, 1#8)] (start 0x8015))).map
      (fun t => (t.getV 0x0#4, t.getV vf)) = some (0xFE#8, 0#8) ∧
    (run (regs [(0x0#4, 0x05#8), (0x1#4, 0x05#8)] (start 0x8015))).map (fun t => (t.getV 0x0#4, t.getV vf)) =
      some (0x00#8, 1#8) := by decide

/-- F5, F7. -/
theorem test_sub_vf_operand :
    (run (regs [(vf, 0x05#8), (0x1#4, 0x03#8)] (start 0x8F15))).map (fun t => t.getV vf) = some 0xFE#8 ∧
    (run (regs [(0x0#4, 0x05#8), (vf, 0x03#8)] (start 0x80F5))).map (fun t => (t.getV 0x0#4, t.getV vf)) =
      some (0x04#8, 1#8) := by decide

/-- A19. -/
theorem test_shr :
    (run (regs [(0x5#4, 0x05#8), (0x6#4, 0xFF#8)] (start 0x8566))).map
      (fun t => (t.getV 0x5#4, t.getV 0x6#4, t.getV vf)) = some (0x02#8, 0xFF#8, 1#8) := by decide

/-- A20, A21. -/
theorem test_subn :
    (run (regs [(0x0#4, 0x03#8), (0x1#4, 0x05#8)] (start 0x8017))).map (fun t => (t.getV 0x0#4, t.getV vf)) =
      some (0x02#8, 1#8) ∧
    (run (regs [(0x0#4, 0x05#8), (0x1#4, 0x03#8), (vf, 1#8)] (start 0x8017))).map
      (fun t => (t.getV 0x0#4, t.getV vf)) = some (0xFE#8, 0#8) := by decide

/-- F10, F11. -/
theorem test_subn_vf_operand :
    (run (regs [(vf, 0x03#8), (0x1#4, 0x05#8)] (start 0x8F17))).map (fun t => t.getV vf) = some 0x04#8 ∧
    (run (regs [(0x0#4, 0x03#8), (vf, 0x05#8)] (start 0x80F7))).map (fun t => (t.getV 0x0#4, t.getV vf)) =
      some (0xFE#8, 1#8) := by decide

/-- A23, A26. -/
theorem test_shl :
    (run (regs [(0x0#4, 0x81#8)] (start 0x800E))).map (fun t => (t.getV 0x0#4, t.getV vf)) = some (0x02#8, 1#8) ∧
    (run (regs [(0x0#4, 0x81#8)] { start 0x800E with shlFlagMode := .legacyZero })).map
      (fun t => (t.getV 0x0#4, t.getV vf)) = some (0x02#8, 0#8) := by decide

/-- F13, F14. -/
theorem test_shl_vf_operand :
    (run (regs [(vf, 0x81#8)] (start 0x8F1E))).map (fun t => t.getV vf) = some 0x02#8 ∧
    (run (regs [(vf, 0x81#8)] { start 0x8F1E with shlFlagMode := .legacyZero })).map (fun t => t.getV vf) =
      some 0x00#8 := by decide

/-- R2: the PRNG's first byte is 0x8D. -/
theorem test_rnd :
    (run (start 0xC00F)).map (fun t => (t.getV 0x0#4, t.rngState)) = some (0x0D#8, 0xc83015ca079f7e1a#64) := by decide

/-- The second row of the table of 2.4. -/
theorem test_prng_second_call :
    xshRr 0xc83015ca079f7e1a#64 = 0x027c6003#32 ∧
    pcgStep 0xc83015ca079f7e1a#64 Config.seedInc = 0xbfcf03ed28736c6d#64 := by decide

/-! ### Index register and memory transfers (2.5) -/

/-- M1. -/
theorem test_ld_i : (run (start 0xA2F0)).map (fun t => t.i) = some 0x2F0#16 := by decide

/-- M4, M5. -/
theorem test_add_i :
    (run (regs [(0x4#4, 0x01#8)] { start 0xF41E with i := 0xFFFF#16 })).map (fun t => t.i) = some 0x0000#16 ∧
    (run (regs [(vf, 0x20#8)] { start 0xFF1E with i := 0x100#16 })).map (fun t => (t.i, t.getV vf)) =
      some (0x120#16, 0x20#8) := by decide

/-- M6a, M6d. -/
theorem test_ld_f :
    (run (regs [(0x0#4, 0x0F#8)] (start 0xF029))).map (fun t => t.i) = some 0x09B#16 ∧
    (run (regs [(0x0#4, 0x10#8)] (start 0xF029))).map (fun t => t.i) = some 0x0A0#16 := by decide

/-- M7. -/
theorem test_ld_b :
    (run (regs [(0x7#4, 0x9C#8)] { start 0xF733 with i := 0x300#16 })).map
      (fun t => (t.mem.read 0x300, t.mem.read 0x301, t.mem.read 0x302)) = some (1#8, 5#8, 6#8) := by decide

/-- M11. -/
theorem test_ld_b_out_of_bounds :
    (run (regs [(0x0#4, 0xFF#8)] { start 0xF033 with i := 0xFFE#16 })).map (fun t => t.status) =
      some (.halted (.outOfBounds 0x200#16 0x1000)) := by decide

/-- M12. -/
theorem test_store_regs :
    (run (regs [(0x0#4, 1#8), (0x1#4, 2#8), (0x2#4, 3#8), (0x3#4, 4#8), (0x4#4, 5#8)]
      { start 0xF355 with i := 0x300#16 })).map
      (fun t => ((List.range 5).map (fun k => t.mem.read (0x300 + k)), t.i)) =
      some ([1#8, 2#8, 3#8, 4#8, 0#8], 0x300#16) := by decide

/-- M14. -/
theorem test_store_regs_out_of_bounds :
    (run { start 0xF155 with i := 0xFFF#16 }).map (fun t => t.status) =
      some (.halted (.outOfBounds 0x200#16 0x1000)) := by decide

/-- M15. -/
theorem test_load_regs :
    (run (regs [(0x4#4, 0x77#8)] (bytes 0x300 [1#8, 2#8, 3#8, 4#8, 5#8] { start 0xF365 with i := 0x300#16 }))).map
      (fun t => (t.getV 0x0#4, t.getV 0x1#4, t.getV 0x2#4, t.getV 0x3#4, t.getV 0x4#4, t.i)) =
      some (1#8, 2#8, 3#8, 4#8, 0x77#8, 0x300#16) := by decide

/-- M17. -/
theorem test_load_regs_out_of_bounds :
    (run { start 0xF065 with i := 0x1000#16 }).map (fun t => t.status) =
      some (.halted (.outOfBounds 0x200#16 0x1000)) := by decide

/-! ### Display (2.6) -/

/-- A display with one pixel set. -/
def onePixel (r : Fin 32) (c : Fin 64) : Display := Display.clear.setPixel r c true

/-- D1. -/
theorem test_cls :
    (run { start 0x00E0 with disp := onePixel 31 63 }).map (fun t => (t.disp.pixel 31 63, t.dirty, t.pc)) =
      some (false, true, 0x202#16) := by decide

/-- D5: glyph F at (62, 30) wraps in both directions. -/
theorem test_drw :
    (run (regs [(0x1#4, 62#8), (0x2#4, 30#8)] { start 0xD125 with i := 0x09B#16 })).map
      (fun t => ([t.disp.pixel 30 62, t.disp.pixel 30 1, t.disp.pixel 31 62, t.disp.pixel 0 63, t.disp.pixel 2 62],
        [t.disp.pixel 31 63, t.disp.pixel 30 2, t.disp.pixel 3 62], t.getV vf, t.dirty)) =
      some ([true, true, true, true, true], [false, false, false], 0#8, true) := by decide

/-- D8. -/
theorem test_drw_collision :
    (run (bytes 0x300 [0xC0#8] { start 0xD001 with i := 0x300#16, disp := onePixel 0 0 })).map
      (fun t => (t.disp.pixel 0 0, t.disp.pixel 0 1, t.getV vf)) = some (false, true, 1#8) := by decide

/-! ### Timers and input (2.7) -/

/-- T1. -/
theorem test_ld_vx_dt : (run { start 0xF307 with dt := 0x3C#8 }).map (fun t => t.getV 0x3#4) = some 0x3C#8 := by decide

/-- T3. -/
theorem test_ld_dt_vx :
    (run (regs [(0x0#4, 0x3C#8)] (ticking (start 0xF015)))).map (fun t => t.dt) = some 0x3B#8 := by decide

/-- T4. -/
theorem test_ld_st_vx : (run (regs [(0x0#4, 2#8)] (start 0xF018))).map (fun t => t.st) = some 2#8 := by decide

/-- T7, T9. -/
theorem test_skp :
    (run (regs [(0x1#4, 5#8)] { start 0xE19E with latch := 0x20#16 })).map (fun t => t.pc) = some 0x204#16 ∧
    (run (regs [(0x1#4, 0x15#8)] { start 0xE19E with latch := 0x20#16 })).map (fun t => t.pc) = some 0x202#16 := by decide

/-- T11, T12. -/
theorem test_sknp :
    (run (regs [(0x1#4, 5#8)] { start 0xE1A1 with latch := 0x20#16 })).map (fun t => t.pc) = some 0x202#16 ∧
    (run (regs [(0x1#4, 0x15#8)] { start 0xE1A1 with latch := 0x20#16 })).map (fun t => t.pc) = some 0x204#16 := by decide

/-- T13: the latch is {3, 9}. -/
theorem test_key_wait_done :
    (run { start 0xF20A with latch := 0x208#16 }).map (fun t => (t.getV 0x2#4, t.pc, t.latch)) =
      some (3#8, 0x202#16, 0x208#16) := by decide

/-- T16: the sample comes after the dispatch step. -/
theorem test_key_wait_sample :
    (run (sampling 0x208#16 false (start 0xF20A))).map (fun t => (t.pc, t.getV 0x2#4, t.latch, t.prevDown)) =
      some (0x200#16, 0#8, 0x208#16, 0x208#16) := by decide

/-- T6. -/
theorem test_tick :
    (run (ticking { start 0x6000 with st := 5#8 })).map (fun t => (t.dt, t.st)) = some (0#8, 4#8) := by decide

/-- T18. -/
theorem test_terminated :
    (run (sampling 0x10#16 true { start 0x6000 with latch := 0x2#16 })).map (fun t => (t.status, t.latch)) =
      some (.halted (.terminated 0x202#16), 0x2#16) := by decide

/-- The second sample of the latch sequence: {1, 2}, then {2, 3}. -/
theorem test_latch_sequence :
    ((State.reset.inputSample 0x06#16 false).inputSample 0x0C#16 false).latch = 0x08#16 := by decide

/-- The render event of 2.6. -/
theorem test_render :
    (run { start 0x6000 with dirty := true, inputs := [{ CycleInput.quiet with render := true }] }).map
      (fun t => t.dirty) = some false := by decide

/-! ### Cycle, end of run and errors (2.8), and initialisation -/

/-- X2: nothing loaded. -/
theorem test_end_of_program :
    (run State.reset).map (fun t => t.status) = some (.halted (.programEnd 0x200#16)) := by decide

/-- X3. -/
theorem test_out_of_space :
    (State.initialise defaultLaunch (List.replicate 3585 0#8)).status = .halted (.outOfSpace 3585) := by
  have h : (List.replicate 3585 (0#8 : Byte)).length = 3585 := List.length_replicate
  simp only [State.initialise, State.load, h]
  rfl

/-- X4, second cycle. -/
theorem test_fetch_out_of_bounds :
    (run { State.reset with programSize := 3584, pc := 0xFFF#16 }).map (fun t => t.status) =
      some (.halted (.outOfBounds 0xFFF#16 0x1000)) := by decide

/-- X5. -/
theorem test_invalid_opcode :
    (run (start 0x8008)).map (fun t => t.status) = some (.halted (.invalidOpcode 0x200#16 0x8008#16)) := by decide

/-- X7. -/
theorem test_fatal_wins :
    (run (sampling 0x0#16 true (start 0x8008))).map (fun t => t.status) =
      some (.halted (.invalidOpcode 0x200#16 0x8008#16)) := by decide

/-- X1, first cycle, on a loaded ROM. -/
theorem test_load_and_run :
    (run { State.initialise defaultLaunch [0x12#8, 0x02#8] with inputs := [CycleInput.quiet] }).map
      (fun t => (t.pc, t.status, t.programSize)) = some (0x202#16, .running, 2) := by decide

/-- E11: the bytes of glyph F. -/
theorem test_font_glyph_f :
    (List.range 5).map (fun k => State.reset.mem.read (0x09B + k)) = [0xF0#8, 0x80#8, 0xF0#8, 0x80#8, 0x80#8] := by decide

/-! ### Witnesses: a concrete input for every statement that has hypotheses, one for each clause -/

/-- The instruction at PC of a start state, and the guards of a dispatch step. -/
theorem witness_StepRunsDecodedInstruction :
    let s := start 0x8014
    s.status = .running ∧ s.pc.toNat < 0x200 + s.programSize ∧ s.pc.toNat + 1 < 4096 ∧
      decode (wordOfBytes (s.mem.read s.pc.toNat) (s.mem.read (s.pc.toNat + 1))) = .ok (.addVxVy 0x0#4 0x1#4) := by decide

/-- An instruction in the last two bytes of memory. -/
theorem witness_StepRunsDecodedInstruction_last :
    let s := ({ State.reset with programSize := 3584, pc := 0xFFE#16 }).withFetchWord 16 0x1200
    s.status = .running ∧ s.pc.toNat < 0x200 + s.programSize ∧ s.pc.toNat + 1 < 4096 ∧
      decode (wordOfBytes (s.mem.read s.pc.toNat) (s.mem.read (s.pc.toNat + 1))) = .ok (.jp 0x200#12) := by decide

theorem witness_DecodeOfEncode : (Instr.sys 0x0EF#12).wf = true := by decide
theorem witness_EncodeOfDecode : decode 0x00EF#16 = .ok (.sys 0x0EF#12) := by decide
theorem witness_PlacedWordIsFetched : ({ State.reset with pc := 0xFFE#16 }).pc.toNat + 1 < 4096 := by decide

/-- A dispatch step that leaves the machine running, in a cycle with every event but the termination key. -/
theorem witness_CycleEventsFollowDispatch :
    ∃ t, let s := { start 0x00E0 with inputs := [⟨true, true, 0x8001#16, false, true⟩], dt := 1#8 }
      s.status = .running ∧ s.pc.toNat < 0x200 + s.programSize ∧ dispatch s = .next t ∧ t.status = .running ∧
        ¬(s.input.sample = true ∧ s.input.term = true) ∧ s.input.tick = true ∧ t.dirty = true :=
  ⟨_, rfl, by decide, rfl, rfl, by decide, rfl, rfl⟩

theorem witness_RunEndsWithinCycle_fatal :
    ∃ t, let s := sampling 0#16 true (start 0x00EE)
      s.status = .running ∧ s.pc.toNat < 0x200 + s.programSize ∧ dispatch s = .next t ∧
        t.status = .halted (.stackUnderflow 0x200#16) :=
  ⟨_, rfl, by decide, rfl, rfl⟩

theorem witness_RunEndsWithinCycle_term :
    ∃ t, let s := sampling 0#16 true (start 0x6000)
      s.status = .running ∧ s.pc.toNat < 0x200 + s.programSize ∧ dispatch s = .next t ∧ t.status = .running ∧
        s.input.sample = true ∧ s.input.term = true :=
  ⟨_, rfl, by decide, rfl, rfl, rfl, rfl⟩

theorem witness_EndOfProgramAndAfter :
    (State.reset.status = .running ∧ 0x200 + State.reset.programSize ≤ State.reset.pc.toNat) ∧
    ({ State.reset with status := .halted (.programEnd 0x200#16) }).status = .halted (.programEnd 0x200#16) := by decide

theorem witness_InvalidWordHalts :
    let s := start 0xFFFF
    s.status = .running ∧ s.pc.toNat < 0x200 + s.programSize ∧ s.pc.toNat + 1 < 4096 ∧
      decode (wordOfBytes (s.mem.read s.pc.toNat) (s.mem.read (s.pc.toNat + 1))) = .error (.invalidOpcode 0xFFFF#16) := by
  decide

/-- A state that meets the invariant: one entry in use, a listed byte, PC as given. -/
def lawful (pc : Word) (n : Nat) : State :=
  { State.reset with pc := pc, programSize := n, mem := [(0xFFF, 1#8)], sp := 1,
                     stack := State.reset.stack.set 0 0x202#16, inputs := [CycleInput.quiet] }

theorem lawful_inv (pc : Word) (n : Nat) (hp : pc.toNat ≤ 0x10FE) (hn : n ≤ 3584) : (lawful pc n).Inv := by
  refine ⟨show Memory.wf [(0xFFF, 1#8)] = true by decide, show 1 ≤ 16 by decide, hp, fun k hk hs => ?_, hn⟩
  have h0 : k = 0 := by
    change k < 1 at hs
    omega
  subst h0
  exact show (0x202#16 : Word).toNat ≤ 0x1000 by decide

/-- Both clauses, at the addresses where they meet. -/
theorem witness_FetchFailsOnlyAtLastByte :
    ((lawful 0xFFE#16 3584).Inv ∧ (lawful 0xFFE#16 3584).status = .running ∧
      (lawful 0xFFE#16 3584).pc.toNat < 0x200 + (lawful 0xFFE#16 3584).programSize ∧
      (lawful 0xFFE#16 3584).pc.toNat < 0xFFF) ∧
    ((lawful 0xFFF#16 3584).Inv ∧ (lawful 0xFFF#16 3584).status = .running ∧
      (lawful 0xFFF#16 3584).pc.toNat < 0x200 + (lawful 0xFFF#16 3584).programSize ∧
      0xFFF ≤ (lawful 0xFFF#16 3584).pc.toNat) :=
  ⟨⟨lawful_inv _ _ (by decide) (by decide), rfl, by decide, by decide⟩,
    ⟨lawful_inv _ _ (by decide) (by decide), rfl, by decide, by decide⟩⟩

/-- A step from a lawful state: the fetched word is 0x0000, a jump to 0. -/
theorem witness_StepKeepsInvariant : (lawful 0x200#16 2).Inv ∧ ∃ t, step (lawful 0x200#16 2) = .next t ∧ t.pc = 0#16 :=
  ⟨lawful_inv _ _ (by decide) (by decide), _, rfl, rfl⟩

theorem witness_DirtyClearedOnlyByRender :
    ∃ t, let s := { start 0x6000 with dirty := true, inputs := [{ CycleInput.quiet with render := true }] }
      step s = .next t ∧ t.safe = true ∧ s.dirty = true ∧ t.dirty = false :=
  ⟨_, rfl, rfl, rfl, rfl⟩

theorem witness_WordReadIsBigEndian : 0xFFE + 1 < 4096 ∧ 4096 ≤ 0xFFF + 1 := by decide
theorem witness_ByteAccess : 0xFFF < 4096 ∧ (0xFFE : Nat) ≠ 0xFFF ∧ 4096 ≤ 0x1000 := by decide

theorem witness_TickLowersTimers :
    let s := { State.reset with st := 1#8 }
    s.dt = 0#8 ∧ s.st ≠ 0#8 ∧ ({ s with dt := 255#8 }).dt ≠ 0#8 ∧ State.reset.st = 0#8 := by decide

theorem witness_HeldKeyIsLatchedOnce : (15 : Nat) < 16 := by decide

theorem witness_InitialiseMeetsInvariant : (List.replicate 3584 (0#8 : Byte)).length ≤ 3584 := by
  rw [List.length_replicate]

theorem witness_InitialMemoryMap :
    (List.replicate 3584 (0#8 : Byte)).length ≤ 3584 ∧ 3584 < (List.replicate 3585 (0#8 : Byte)).length := by
  rw [List.length_replicate, List.length_replicate]
  decide

theorem witness_InitialRegisters : ([0x12#8, 0x00#8] : List Byte).length ≤ 3584 := by decide

/-! Frames -/

theorem witness_RegisterFrame :
    ∃ t, exec (.addVxVy 0x1#4 0x2#4) State.reset = .next t ∧ t.safe = true ∧
      namesDest 0x2#4 (.addVxVy 0x1#4 0x2#4) = false ∧ ¬(flagWriter (.addVxVy 0x1#4 0x2#4) = true ∧ 0x2#4 = vf) :=
  ⟨_, rfl, rfl, rfl, by decide⟩

/-- The flag register itself, under an instruction that writes no flag. -/
theorem witness_RegisterFrame_vf :
    ∃ t, exec (.or 0x1#4 0x2#4) State.reset = .next t ∧ t.safe = true ∧ namesDest vf (.or 0x1#4 0x2#4) = false ∧
      ¬(flagWriter (.or 0x1#4 0x2#4) = true ∧ vf = vf) :=
  ⟨_, rfl, rfl, rfl, by decide⟩

theorem witness_ProgramCounterFrame :
    ∃ t, exec (.ldMiVx 0x3#4) State.reset = .next t ∧ t.safe = true ∧ transfersControl (.ldMiVx 0x3#4) = false :=
  ⟨_, rfl, rfl, rfl⟩

/-- A store of four bytes at the end of memory, and the byte below them. -/
theorem witness_MemoryFrame :
    let s := { State.reset with i := 0xFFC#16 }
    ∃ t, exec (.ldMiVx 0x3#4) s = .next t ∧ t.safe = true ∧
      ¬(s.effAddr 0 ≤ 0xFFB ∧ 0xFFB < s.effAddr 0 + bytesStored (.ldMiVx 0x3#4)) :=
  ⟨_, rfl, rfl, by decide⟩

theorem witness_StackAndDisplayFrame :
    ∃ t, exec (.jp 0x200#12) State.reset = .next t ∧ t.safe = true ∧ (∀ nnn, Instr.jp 0x200#12 ≠ .call nnn) ∧
      Instr.jp 0x200#12 ≠ .ret ∧ Instr.jp 0x200#12 ≠ .cls ∧ ∀ x y n, Instr.jp 0x200#12 ≠ .drw x y n :=
  ⟨_, rfl, rfl, by simp, by simp, by simp, by simp⟩

theorem witness_SpecialRegisterFrame :
    ∃ t, exec (.ldVxDt 0x0#4) State.reset = .next t ∧ t.safe = true ∧ writesIndex (.ldVxDt 0x0#4) = false ∧
      (∀ x, Instr.ldVxDt 0x0#4 ≠ .ldDtVx x) ∧ (∀ x, Instr.ldVxDt 0x0#4 ≠ .ldStVx x) ∧
      ∀ x kk, Instr.ldVxDt 0x0#4 ≠ .rnd x kk :=
  ⟨_, rfl, rfl, rfl, by simp, by simp, by simp⟩

theorem witness_ConstantAndInputFrame :
    (∃ t, exec (.rnd 0x0#4 0xFF#8) State.reset = .next t ∧ t.safe = true) ∧
      ∃ t, step (start 0xC0FF) = .next t ∧ t.safe = true :=
  ⟨⟨_, rfl, rfl⟩, ⟨_, rfl, rfl⟩⟩

/-- The four outcomes of InstructionErrors, each of them a next state. -/
theorem witness_InstructionErrors :
    (∃ t, exec .cls State.reset = .next t ∧ t.status = .running) ∧
    (∃ t, exec (.call 0x200#12) { State.reset with sp := 16 } = .next t ∧
      t.status = .halted (.stackOverflow 0x1FE#16)) ∧
    (∃ t, exec .ret State.reset = .next t ∧ t.status = .halted (.stackUnderflow 0x1FE#16)) ∧
    ∃ t, exec (.ldBVx 0x0#4) { State.reset with i := 0xFFE#16 } = .next t ∧
      t.status = .halted (.outOfBounds 0x1FE#16 0x1000) :=
  ⟨⟨_, rfl, rfl⟩, ⟨_, rfl, rfl⟩, ⟨_, rfl, rfl⟩, ⟨_, rfl, rfl⟩⟩

theorem witness_SoundTimerIsNeverRead :
    ∃ t, exec (.ldStVx 0x0#4) { State.reset with st := 9#8 } = .next t ∧ t.safe = true := ⟨_, rfl, rfl⟩

/-! Control transfer -/

theorem witness_ReturnPopsStack :
    ({ State.reset with sp := 1 }).sp = 0 + 1 ∧ ({ State.reset with sp := 16 }).sp = 15 + 1 ∧ State.reset.sp = 0 := by
  decide

theorem witness_CallPushesReturnAddress :
    State.reset.sp < 16 ∧ ({ State.reset with sp := 15 }).sp < 16 ∧ ({ State.reset with sp := 16 }).sp = 16 := by decide

/-- A machine with 15 entries in use, just after a call. -/
def called : State := (({ State.reset with sp := 15, pc := 0x202#16 }).pushed 0x202#16).jumpTo 0x300#12

/-- A subroutine that changed a register and a timer, called with 15 entries in use. -/
theorem witness_CallAndReturnAreInverse :
    let s := { State.reset with sp := 15, pc := 0x202#16 }
    let u := (called.setV 0x0#4 7#8).setDt 1#8
    s.sp < 16 ∧ exec (.call 0x300#12) s = .next called ∧ u.sp = called.sp ∧ u.stack[15] = called.stack[15] ∧
      u.getV 0x0#4 ≠ called.getV 0x0#4 ∧ u.dt ≠ called.dt :=
  ⟨by decide, rfl, rfl, rfl, by decide, by decide⟩

/-! Arithmetic, memory, display, timers -/

theorem witness_SubtractWithNoBorrow : (0x0#4 : Nibble) ≠ vf ∧ (0xE#4 : Nibble) ≠ vf := by decide
theorem witness_ShiftByOne : (0xE#4 : Nibble) ≠ vf := by decide
theorem witness_VfOperandOfAddAndSub : (0x0#4 : Nibble) ≠ vf ∧ (0x1#4 : Nibble) ≠ vf := by decide

theorem witness_TimerTransfers : (0x3#4 : Nibble) ≠ vf := by decide
theorem witness_AddWithCarry : (0x0#4 : Nibble) ≠ vf := by decide
theorem witness_LoadsAndAddImmediate : (0xE#4 : Nibble) ≠ vf := by decide

theorem witness_DecimalDigitsStored : ({ State.reset with i := 0xFFD#16 }).effAddr 0 + 3 ≤ 4096 := by decide

theorem witness_RegistersStored :
    ({ State.reset with i := 0xFF0#16 }).effAddr 0 + ((0xF#4 : Nibble).toNat + 1) ≤ 4096 := by decide

theorem witness_RegistersLoaded :
    ({ State.reset with i := 0xFFF#16 }).effAddr 0 + ((0x0#4 : Nibble).toNat + 1) ≤ 4096 := by decide

/-- Each of the four instructions that access memory, at the first address I that fails. -/
theorem witness_AccessPastMemoryHalts :
    (bytesAtI (.drw 0x0#4 0x1#4 0x1#4) ≠ 0 ∧ 4096 < (0x1000#16 : Word).toNat + bytesAtI (.drw 0x0#4 0x1#4 0x1#4)) ∧
    (bytesAtI (.ldBVx 0x0#4) ≠ 0 ∧ 4096 < (0xFFE#16 : Word).toNat + bytesAtI (.ldBVx 0x0#4)) ∧
    (bytesAtI (.ldMiVx 0x0#4) ≠ 0 ∧ 4096 < (0x1000#16 : Word).toNat + bytesAtI (.ldMiVx 0x0#4)) ∧
    (bytesAtI (.ldVxMi 0xF#4) ≠ 0 ∧ 4096 < (0xFF1#16 : Word).toNat + bytesAtI (.ldVxMi 0xF#4)) := by decide

/-- Digits whose last one lands on PC alone. -/
theorem witness_StoredWordIsFetched_digits :
    let s := { State.reset with i := 0x300#16, pc := 0x302#16 }
    s.pc.toNat + 1 < 4096 ∧ s.effAddr 0 + 3 ≤ 4096 ∧ s.effAddr 0 + 2 = s.pc.toNat := by decide

/-- One register, stored at PC + 1 alone, the last byte of memory. -/
theorem witness_StoredWordIsFetched_registers :
    let s := { State.reset with i := 0xFFF#16, pc := 0xFFE#16 }
    s.pc.toNat + 1 < 4096 ∧ s.effAddr 0 + ((0x0#4 : Nibble).toNat + 1) ≤ 4096 ∧ s.effAddr 0 = s.pc.toNat + 1 := by decide

/-- A sprite of no rows needs none in memory. -/
theorem witness_DrawXorsSprite_empty :
    (0x0#4 : Nibble).toNat = 0 ∧ 4096 < ({ State.reset with i := 0xFFFF#16 }).effAddr 0 := by decide

/-- Glyph F at the origin of an empty display fits in memory, covers (0, 0), and leaves (31, 63) alone. -/
theorem witness_DrawXorsSprite :
    let s := { State.reset with i := 0x09B#16 }
    s.effAddr 0 + (0x5#4 : Nibble).toNat ≤ 4096 ∧
      spriteCovers (s.getV 0x0#4).toNat (s.getV 0x1#4).toNat (spriteAtI s 0x5#4) 0 0 ∧
      s.disp.pixel 0 0 = false ∧ ({ s with disp := onePixel 0 0 }).disp.pixel 0 0 = true := by
  refine ⟨by decide, ⟨0, 0, 0xF0#8, by decide, by decide, by decide, by decide, by decide⟩, by decide, by decide⟩

theorem witness_DrawXorsSprite_uncovered :
    ¬spriteCovers 0 0 [0x80#8] 31 63 := by
  rintro ⟨j, k, row, hj, hk, hr, -, -⟩
  have hl := (List.getElem?_eq_some_iff.mp hj).1
  simp at hl hr
  omega

/-- An empty display and a sprite row at the end of memory. -/
theorem witness_DrawTwiceRestoresDisplay :
    ∃ t, ((0x1#4 : Nibble).toNat = 0 ∨ ({ State.reset with i := 0xFFF#16 }).effAddr 0 + (0x1#4 : Nibble).toNat ≤ 4096) ∧
      exec (.drw 0x0#4 0x1#4 0x1#4) { State.reset with i := 0xFFF#16 } = .next t ∧
      ((0x0#4 : Nibble) = vf ∨ (0x1#4 : Nibble) = vf → t.getV vf = State.reset.getV vf) :=
  ⟨_, by decide, rfl, by decide⟩

/-- Glyph F drawn with VF as both coordinates: without a collision VF stays 0 and the place is the same. -/
theorem witness_DrawTwiceRestoresDisplay_vf :
    ∃ t, ((0x5#4 : Nibble).toNat = 0 ∨ ({ State.reset with i := 0x09B#16 }).effAddr 0 + (0x5#4 : Nibble).toNat ≤ 4096) ∧
      exec (.drw vf vf 0x5#4) { State.reset with i := 0x09B#16 } = .next t ∧ t.getV vf = State.reset.getV vf :=
  ⟨_, by decide, rfl, by decide⟩

theorem witness_KeyWait :
    State.reset.latch = 0#16 ∧
    (({ State.reset with latch := 0x8000#16 }).latch.getLsbD 15 = true ∧
      ∀ j, j < 15 → ({ State.reset with latch := 0x8000#16 }).latch.getLsbD j = false) := by decide

theorem witness_WaitingCycleKeepsRunning :
    let s := ticking { start 0xF20A with dt := 2#8, st := 1#8 }
    s.status = .running ∧ s.pc.toNat < 0x200 + s.programSize ∧ s.pc.toNat + 1 < 4096 ∧
      decode (wordOfBytes (s.mem.read s.pc.toNat) (s.mem.read (s.pc.toNat + 1))) = .ok (.ldVxK 0x2#4) ∧
      s.latch = 0#16 ∧ s.input.tick = true := by decide

/-- The same wait, ended by the termination key. -/
theorem witness_WaitingCycleKeepsRunning_term :
    let s := sampling 0#16 true (start 0xF20A)
    s.status = .running ∧ s.pc.toNat < 0x200 + s.programSize ∧ s.pc.toNat + 1 < 4096 ∧
      decode (wordOfBytes (s.mem.read s.pc.toNat) (s.mem.read (s.pc.toNat + 1))) = .ok (.ldVxK 0x2#4) ∧
      s.latch = 0#16 ∧ s.input.sample = true ∧ s.input.term = true := by decide

end Sys2Proof.Tests
end

section
/-! PROOFS. What one instruction can do to the state, said once (R12, R21, R22, R25, R29, R34, R35, R38), and what follows
for the frames and the invariant of a run. -/

namespace Sys2Proof.Machine

/-! ### Jump targets -/

theorem toNat_zext16_le (nnn : Addr) : (zext16 nnn).toNat ≤ 0xFFF := by
  rw [toNat_zext16]
  omega

/-- The target of `Bnnn` is an exact sum (R118). -/
theorem toNat_zext16_add_zextByte_le (nnn : Addr) (b : Byte) : (zext16 nnn + zextByte b).toNat ≤ 0x10FE := by
  rw [BitVec.toNat_add, toNat_zext16, toNat_zextByte]
  omega

/-! ### The fatal errors and the effect of an instruction -/

/-- The fatal errors of an instruction: its cause, and the record of R222. -/
inductive Raises (s : State) : Instr → HaltReason → Prop where
  /-- `2nnn` with a full stack (R27). -/
  | overflow (nnn : Addr) (hsp : 16 ≤ s.sp) : Raises s (.call nnn) (.stackOverflow s.instrAddr)
  /-- `00EE` with an empty stack (R28). -/
  | underflow (hsp : s.sp = 0) : Raises s .ret (.stackUnderflow s.instrAddr)
  /-- An access at I that passes the end of memory (R60). -/
  | outOfBounds (i : Instr) (hn : bytesAtI i ≠ 0) (ha : 4096 < s.effAddr 0 + bytesAtI i) :
    Raises s i (.outOfBounds s.instrAddr (max (s.effAddr 0) 4096))

/-- Which updates of the state `s` an instruction can make. Instructions that write the same part of the state share a
constructor, whose premises say which instructions they are; the values written are left open where no frame or bound needs
them. -/
inductive Effect (s : State) : Instr → State → Prop where
  /-- The run ends and nothing else is written. -/
  | halt {i : Instr} {e : HaltReason} (he : Raises s i e) : Effect s i (s.halt e)
  | call (nnn : Addr) (hsp : s.sp < 16) : Effect s (.call nnn) ((s.pushed s.pc).setPc (zext16 nnn))
  | ret (hsp : s.sp ≠ 0) : Effect s .ret (s.popped.setPc s.stackTop)
  /-- A jump without the stack; the largest target is that of `Bnnn` (R118). -/
  | jump {i : Instr} {a : Word} (hi : transfersControl i = true) (ha : a.toNat ≤ 0x10FE) : Effect s i (s.setPc a)
  | skip {i : Instr} (c : Bool) (hi : transfersControl i = true) :
    Effect s i (s.setPc (if c then s.pc + 2#16 else s.pc))
  /-- `Fx0A` with no key latched (R203). -/
  | wait (x : Nibble) : Effect s (.ldVxK x) (s.setPc (s.pc - 2#16))
  | reg {i : Instr} {x : Nibble} (b : Byte) (hx : namesDest x i = true) : Effect s i (s.setV x b)
  /-- The flag first, then the destination (R11). -/
  | flagThenReg {i : Instr} {x : Nibble} (f b : Byte) (hf : flagWriter i = true) (hx : namesDest x i = true) :
    Effect s i ((s.setV vf f).setV x b)
  | rnd (x : Nibble) (kk : Byte) (a : BitVec 64) (b : Byte) : Effect s (.rnd x kk) ((s.setRng a).setV x b)
  | index {i : Instr} (a : Word) (hi : writesIndex i = true) : Effect s i (s.setI a)
  | delay (x : Nibble) (b : Byte) : Effect s (.ldDtVx x) (s.setDt b)
  | sound (x : Nibble) (b : Byte) : Effect s (.ldStVx x) (s.setSt b)
  | clear : Effect s .cls (s.setDisp Display.clear)
  | draw (x y n : Nibble) (d : Display) (f : Byte) : Effect s (.drw x y n) ((s.setDisp d).setV vf f)
  /-- Bytes stored at I, perhaps up to the end of memory only. -/
  | store {i : Instr} {m : Memory} {st : Status}
    (hm : ∀ a, ¬(s.effAddr 0 ≤ a ∧ a < s.effAddr 0 + bytesStored i) → m.read a = s.mem.read a)
    (hwf : s.mem.wf = true → m.wf = true) (hst : st = s.status ∨ ∃ e, Raises s i e ∧ st = .halted e) :
    Effect s i { s with mem := m, status := st }
  /-- V0 to Vx loaded, perhaps up to the end of memory only. -/
  | load (x : Nibble) {v : Vector Byte 16} {st : Status}
    (hv : ∀ r, x.toNat < r.toNat → State.getV { s with v := v } r = s.getV r)
    (hst : st = s.status ∨ ∃ e, Raises s (.ldVxMi x) e ∧ st = .halted e) :
    Effect s (.ldVxMi x) { s with v := v, status := st }

/-- The six skips write PC, be it with the value it has. -/
theorem Effect.of_skipIf (s : State) {i : Instr} (hi : transfersControl i = true) (c : Bool) : Effect s i (s.skipIf c) := by
  have e : s.skipIf c = s.setPc (if c then s.pc + 2#16 else s.pc) := by cases c <;> rfl
  exact e ▸ .skip c hi

/-- A load of registers leaves every register outside the range it names, even when it ends the run. -/
theorem State.getV_loadRegs_outside (n : Nat) (s : State) (a k : Nat) (hk : k + n ≤ 16) (r : Nibble)
    (hr : ¬(k ≤ r.toNat ∧ r.toNat < k + n)) : (s.loadRegs a k n).getV r = s.getV r := by
  induction n generalizing s a k with
  | zero => rfl
  | succ n ih =>
    by_cases ha : a < 4096
    · have hne : r ≠ BitVec.ofNat 4 k := by
        rintro rfl
        simp only [BitVec.toNat_ofNat] at hr
        omega
      rw [State.loadRegs, s.memRead_ok ha]
      exact (ih _ _ _ (by omega) (by omega)).trans (s.getV_setV_ne _ hne)
    · rw [State.loadRegs, s.memRead_error (by omega)]
      rfl

/-- The stores at I: `Fx33` and `Fx55`. -/
theorem Effect.of_storeBytes (s : State) (i : Instr) (bs : List Byte) (hs : bs.length = bytesStored i)
    (ha : bs.length = bytesAtI i) : Effect s i (s.storeBytes (s.effAddr 0) bs) := by
  obtain ⟨m, st, ht, hm, hwf, hst⟩ := State.storeBytes_spec bs s (s.effAddr 0)
  rw [ht]
  refine .store (hs ▸ hm) hwf (hst.imp_right ?_)
  rintro ⟨hne, hlt, rfl⟩
  exact ⟨_, .outOfBounds i (ha ▸ mt List.length_eq_zero_iff.mp hne) (ha ▸ hlt), rfl⟩

/-- The load at I: `Fx65`. -/
theorem Effect.of_loadRegs (s : State) (x : Nibble) :
    Effect s (.ldVxMi x) (s.loadRegs (s.effAddr 0) 0 (x.toNat + 1)) := by
  have hv : ∀ r : Nibble, x.toNat < r.toNat → (s.loadRegs (s.effAddr 0) 0 (x.toNat + 1)).getV r = s.getV r :=
    fun r hr => State.getV_loadRegs_outside _ s _ 0 (by omega) r (by omega)
  obtain ⟨hin, hout⟩ := State.loadRegs_frame (x.toNat + 1) s (s.effAddr 0) 0
  by_cases h : s.effAddr 0 + (x.toNat + 1) ≤ 4096
  · rw [hin (.inl h)]
    exact .load x hv (.inl rfl)
  · rw [hout (by omega) (by omega)]
    exact .load x hv (.inr ⟨_, .outOfBounds (.ldVxMi x) (Nat.succ_ne_zero _) (Nat.not_le.mp h), rfl⟩)

/-- Every instruction answers a next state that its effect describes. -/
theorem exec_next_effect (i : Instr) (s : State) : ∃ t, exec i s = .next t ∧ Effect s i t :=
  match i with
  | .ret => by
    rcases s.pop_cases with ⟨hsp, h⟩ | ⟨hsp, h⟩
    · exact ⟨_, by simp only [exec, execRet, h], .ret hsp⟩
    · exact ⟨_, by simp only [exec, execRet, h], .halt (.underflow hsp)⟩
  | .call nnn => by
    rcases s.push_cases s.pc with ⟨hsp, h⟩ | ⟨hsp, h⟩
    · exact ⟨_, by simp only [exec, execCall, h, State.jumpTo], .call nnn hsp⟩
    · exact ⟨_, by simp only [exec, execCall, h], .halt (.overflow nnn hsp)⟩
  | .sys nnn | .jp nnn => ⟨_, rfl, .jump rfl ((toNat_zext16_le nnn).trans (by decide))⟩
  | .jpV0 nnn => ⟨_, rfl, .jump rfl (toNat_zext16_add_zextByte_le nnn _)⟩
  | .seVxKk _ _ | .sneVxKk _ _ | .seVxVy _ _ | .sneVxVy _ _ | .skp _ | .sknp _ => ⟨_, rfl, .of_skipIf s rfl _⟩
  | .ldVxK x => by
    cases h : lowestKey s.latch with
    | none => exact ⟨s.setPc (s.pc - 2#16), by simp only [exec, execLdVxK, h], .wait x⟩
    | some k => exact ⟨s.setV x (BitVec.ofNat 8 k), by simp only [exec, execLdVxK, h], .reg _ (beq_self_eq_true x)⟩
  | .ldVxKk x _ | .addVxKk x _ | .ldVxVy x _ | .or x _ | .and x _ | .xor x _ | .ldVxDt x =>
    ⟨_, rfl, .reg _ (beq_self_eq_true x)⟩
  | .addVxVy x _ | .sub x _ | .shr x _ | .subn x _ | .shl x _ =>
    ⟨_, rfl, .flagThenReg _ _ rfl (beq_self_eq_true x)⟩
  | .rnd x kk => ⟨_, rfl, .rnd x kk _ _⟩
  | .ldINnn _ | .addIVx _ | .ldFVx _ => ⟨_, rfl, .index _ rfl⟩
  | .ldDtVx x => ⟨_, rfl, .delay x _⟩
  | .ldStVx x => ⟨_, rfl, .sound x _⟩
  | .cls => ⟨_, rfl, .clear⟩
  | .drw x y n => by
    rcases s.readBytes_cases (s.effAddr 0) n.toNat with ⟨hin, -⟩ | ⟨hlt, hn, h⟩
    · exact ⟨_, execDrw_ok s x y n hin.symm, .draw x y n _ _⟩
    · exact ⟨_, by simp only [exec, execDrw, h], .halt (.outOfBounds _ hn hlt)⟩
  | .ldBVx x => ⟨_, rfl, .of_storeBytes s _ _ rfl rfl⟩
  | .ldMiVx x => ⟨_, rfl, .of_storeBytes s _ _ (length_regsUpTo s x) (length_regsUpTo s x)⟩
  | .ldVxMi x => ⟨_, rfl, .of_loadRegs s x⟩

/-- What an instruction can do. -/
theorem exec_effect {i : Instr} {s t : State} (h : exec i s = .next t) : Effect s i t := by
  obtain ⟨t', h', he⟩ := exec_next_effect i s
  rw [h] at h'
  cases h'
  exact he

/-! ### The frames of an instruction -/

/-- Settles O22, by the effect: only a written register can read otherwise. -/
theorem registerFrame : Obligations.RegisterFrame := by
  intro i s t r h _ hdest hflag
  have ne_dest {x : Nibble} (hx : namesDest x i = true) : r ≠ x := by
    rintro rfl
    simp [hx] at hdest
  have ne_vf (hf : flagWriter i = true) : r ≠ vf := fun e => hflag ⟨hf, e⟩
  cases exec_effect h with
  | reg b hx => exact s.getV_setV_ne b (ne_dest hx)
  | flagThenReg f b hf hx => exact (State.getV_setV_ne _ b (ne_dest hx)).trans (s.getV_setV_ne f (ne_vf hf))
  | rnd x kk a b => exact State.getV_setV_ne _ b (ne_dest (beq_self_eq_true x))
  | draw x y n d f => exact State.getV_setV_ne _ f (ne_vf rfl)
  | load x hv => exact hv r (by simpa [namesDest] using hdest)
  | _ => rfl

/-- Settles O23, by the effect: PC is written only where control is transferred. -/
theorem programCounterFrame : Obligations.ProgramCounterFrame := by
  intro i s t h _ hi
  cases exec_effect h with
  | call | ret | wait => cases hi
  | jump hc | skip _ hc => simp [hi] at hc
  | _ => rfl

/-- Settles O25, by the effect: the stack is written by its two constructors only, and so is the display. -/
theorem stackAndDisplayFrame : Obligations.StackAndDisplayFrame := by
  intro i s t h _
  cases exec_effect h with
  | call nnn => exact ⟨fun hc => absurd rfl (hc nnn), fun _ _ => ⟨rfl, rfl⟩⟩
  | ret => exact ⟨fun _ hr => absurd rfl hr, fun _ _ => ⟨rfl, rfl⟩⟩
  | clear => exact ⟨fun _ _ => ⟨rfl, rfl⟩, fun hc => absurd rfl hc⟩
  | draw x y n => exact ⟨fun _ _ => ⟨rfl, rfl⟩, fun _ hd => absurd rfl (hd x y n)⟩
  | _ => exact ⟨fun _ _ => ⟨rfl, rfl⟩, fun _ _ => ⟨rfl, rfl⟩⟩

/-- Settles O26, by the effect: each of the four has constructors of its own. -/
theorem specialRegisterFrame : Obligations.SpecialRegisterFrame := by
  intro i s t h _
  cases exec_effect h with
  | index a hi => exact ⟨fun hn => by simp [hi] at hn, fun _ => rfl, fun _ => rfl, fun _ => rfl⟩
  | delay x => exact ⟨fun _ => rfl, fun hn => absurd rfl (hn x), fun _ => rfl, fun _ => rfl⟩
  | sound x => exact ⟨fun _ => rfl, fun _ => rfl, fun hn => absurd rfl (hn x), fun _ => rfl⟩
  | rnd x kk => exact ⟨fun _ => rfl, fun _ => rfl, fun _ => rfl, fun hn => absurd rfl (hn x kk)⟩
  | _ => exact ⟨fun _ => rfl, fun _ => rfl, fun _ => rfl, fun _ => rfl⟩

/-! ### From an instruction to a dispatch step -/

/-- What holds before a dispatch step holds after it if ending the run, the advance and every instruction keep it. -/
theorem dispatch_keeps {P : State → Prop} (hhalt : ∀ u e, P u → P (u.halt e)) (hadvance : ∀ u, P u → P u.advance)
    (hexec : ∀ i u v, exec i u = .next v → P u → P v) {s t : State} (h : dispatch s = .next t) (hs : P s) : P t := by
  rcases dispatch_cases h with ⟨bad, -, rfl⟩ | ⟨w, e, -, -, rfl⟩ | ⟨w, i, -, -, hi⟩
  · exact hhalt s _ hs
  · exact hhalt _ _ (hadvance s hs)
  · exact hexec i _ t hi (hadvance s hs)

/-! ### The constants of a run -/

/-- The constants of a run are those of `c` (R38, R40, R42). -/
def State.hasConstantsOf (c s : State) : Prop :=
  s.programSize = c.programSize ∧ s.rngInc = c.rngInc ∧ s.shlFlagMode = c.shlFlagMode

/-- What no instruction writes. -/
theorem exec_constants {i : Instr} {s t : State} (h : exec i s = .next t) :
    t.latch = s.latch ∧ t.prevDown = s.prevDown ∧ t.rngInc = s.rngInc ∧ t.programSize = s.programSize ∧
      t.shlFlagMode = s.shlFlagMode ∧ t.inputs = s.inputs ∧ t.cycle = s.cycle := by
  cases exec_effect h <;> exact ⟨rfl, rfl, rfl, rfl, rfl, rfl, rfl⟩

theorem exec_keeps_constants {c s t : State} {i : Instr} (h : exec i s = .next t) (hs : c.hasConstantsOf s) :
    c.hasConstantsOf t := by
  obtain ⟨-, -, hinc, hsize, hmode, -, -⟩ := exec_constants h
  obtain ⟨hsize', hinc', hmode'⟩ := hs
  exact ⟨hsize.trans hsize', hinc.trans hinc', hmode.trans hmode'⟩

/-- Settles O27: no effect writes them, and the end of a cycle leaves the constants. -/
theorem constantAndInputFrame : Obligations.ConstantAndInputFrame := by
  refine ⟨fun i s t h _ => exec_constants h, fun s u h _ => ?_⟩
  obtain ⟨-, ⟨-, rfl⟩ | ⟨-, t, ht, rfl⟩⟩ := step_cases h
  · exact ⟨rfl, rfl, rfl⟩
  · obtain ⟨hsize, hinc, hmode⟩ : s.hasConstantsOf t :=
      dispatch_keeps (P := s.hasConstantsOf) (fun _ _ hu => hu) (fun _ hu => hu)
        (fun _ _ _ hi hu => exec_keeps_constants hi hu) ht ⟨rfl, rfl, rfl⟩
    simp [hsize, hinc, hmode]

/-! ### The dirty flag -/

@[simp] theorem State.tickAndSample_dirty (s : State) (inp : CycleInput) : (s.tickAndSample inp).dirty = s.dirty := by
  unfold State.tickAndSample State.inputSample
  split <;> split <;> (try split) <;> rfl

/-- Without a render the end of a cycle leaves the dirty flag. -/
theorem State.endCycle_dirty_of_not_render (t : State) {inp : CycleInput} (h : inp.render = false) :
    (t.endCycle inp).dirty = t.dirty := by
  unfold State.endCycle State.maybeRender
  split
  · rfl
  · split <;> simp [h]

/-- An instruction leaves the dirty flag or sets it. -/
theorem exec_keeps_dirty {i : Instr} {s t : State} (h : exec i s = .next t) (hs : s.dirty = true) : t.dirty = true := by
  cases exec_effect h with
  | clear | draw => rfl
  | _ => exact hs

/-- Settles O13: the dispatch step keeps the flag, and so does the end of a cycle without a render. -/
theorem dirtyClearedOnlyByRender : Obligations.DirtyClearedOnlyByRender := by
  intro s u h _ hs hu
  obtain ⟨-, ⟨-, rfl⟩ | ⟨-, t, ht, rfl⟩⟩ := step_cases h
  · simp [hs] at hu
  · have hd : t.dirty = true :=
      dispatch_keeps (P := fun u => u.dirty = true) (fun _ _ hu => hu) (fun _ hu => hu)
        (fun _ _ _ hi hu => exec_keeps_dirty hi hu) ht hs
    by_contra hr
    rw [t.endCycle_dirty_of_not_render (by simpa using hr), hd] at hu
    cases hu

/-! ### The sound timer -/

theorem State.storeBytes_setSt (bs : List Byte) (s : State) (a : Nat) (b : Byte) :
    (s.setSt b).storeBytes a bs = (s.storeBytes a bs).setSt b := by
  induction bs generalizing s a with
  | nil => rfl
  | cons c bs ih =>
    by_cases ha : a < 4096
    · rw [State.storeBytes, State.storeBytes, s.memWrite_ok c ha, (s.setSt b).memWrite_ok c ha]
      exact ih (s.setByte a c) (a + 1)
    · rw [State.storeBytes, State.storeBytes, s.memWrite_error c (by omega), (s.setSt b).memWrite_error c (by omega)]
      rfl

theorem State.loadRegs_setSt (n : Nat) (s : State) (a k : Nat) (b : Byte) :
    (s.setSt b).loadRegs a k n = (s.loadRegs a k n).setSt b := by
  induction n generalizing s a k with
  | zero => rfl
  | succ n ih =>
    by_cases ha : a < 4096
    · rw [State.loadRegs, State.loadRegs, s.memRead_ok ha, (s.setSt b).memRead_ok ha]
      exact ih (s.setV (BitVec.ofNat 4 k) (s.mem.read a)) (a + 1) (k + 1)
    · rw [State.loadRegs, State.loadRegs, s.memRead_error (by omega), (s.setSt b).memRead_error (by omega)]
      rfl

theorem State.readBytes_setSt (s : State) (a n : Nat) (b : Byte) : (s.setSt b).readBytes a n = s.readBytes a n := by
  induction n generalizing a with
  | zero => rfl
  | succ n ih =>
    rw [State.readBytes, State.readBytes, ih]
    rfl

theorem State.skipIf_setSt (s : State) (c : Bool) (b : Byte) : (s.setSt b).skipIf c = (s.skipIf c).setSt b := by
  cases c <;> rfl

/-- No instruction but `Fx18` reads or writes ST: it commutes with a change of ST. -/
theorem exec_setSt {i : Instr} {s t : State} (b : Byte) (h : exec i s = .next t) (hi : ∀ x, i ≠ .ldStVx x) :
    exec i (s.setSt b) = .next (t.setSt b) := by
  cases i with
  | ldStVx x => exact absurd rfl (hi x)
  | seVxKk | sneVxKk | seVxVy | sneVxVy | skp | sknp =>
    cases h
    exact congrArg Host.Outcome.next (s.skipIf_setSt _ b)
  | ldBVx | ldMiVx =>
    cases h
    exact congrArg Host.Outcome.next (State.storeBytes_setSt _ s _ b)
  | ldVxMi x =>
    cases h
    exact congrArg Host.Outcome.next (State.loadRegs_setSt _ s _ 0 b)
  | ret =>
    by_cases hsp : s.sp = 0
    all_goals
      simp only [exec, execRet, State.pop, State.setSt_sp, hsp, if_true, if_false] at h ⊢
      cases h
      rfl
  | call nnn =>
    by_cases hsp : s.sp < 16
    all_goals
      simp only [exec, execCall, State.push, State.setSt_sp, hsp, if_true, if_false] at h ⊢
      cases h
      rfl
  | drw x y n =>
    have hb : (s.setSt b).readBytes ((s.setSt b).effAddr 0) n.toNat = s.readBytes (s.effAddr 0) n.toNat :=
      s.readBytes_setSt _ _ b
    simp only [exec, execDrw, hb] at h ⊢
    cases hr : s.readBytes (s.effAddr 0) n.toNat
    all_goals
      simp only [hr] at h ⊢
      cases h
      rfl
  | ldVxK x =>
    simp only [exec, execLdVxK, State.setSt_latch] at h ⊢
    cases hk : lowestKey s.latch
    all_goals
      simp only [hk] at h ⊢
      cases h
      rfl
  | _ =>
    cases h
    rfl

/-- Settles O29: `Fx18` gives the same state whatever ST was, and every other instruction commutes with a change of ST. -/
theorem soundTimerIsNeverRead : Obligations.SoundTimerIsNeverRead := by
  intro i s t b h
  by_cases hi : ∃ x, i = .ldStVx x
  · obtain ⟨x, rfl⟩ := hi
    cases h
    exact ⟨_, rfl, rfl, fun _ => rfl⟩
  · exact ⟨t.setSt b, exec_setSt b h fun x e => hi ⟨x, e⟩, rfl, fun _ => rfl⟩

/-! ### The invariant -/

section
variable {s t : State}

/-- The invariant speaks of five parts of the state only. -/
theorem State.Inv.congr (h : s.Inv) (hmem : t.mem = s.mem) (hsp : t.sp = s.sp) (hpc : t.pc = s.pc)
    (hstack : t.stack = s.stack) (hsize : t.programSize = s.programSize) : t.Inv where
  memory := hmem ▸ h.memory
  stackPointer := hsp ▸ h.stackPointer
  pcBound := hpc ▸ h.pcBound
  returns := by rw [hstack, hsp]; exact h.returns
  program := hsize ▸ h.program

theorem State.Inv.halt (h : s.Inv) (e : HaltReason) : (s.halt e).Inv := h.congr rfl rfl rfl rfl rfl

theorem State.Inv.endCycle (h : s.Inv) (inp : CycleInput) : (s.endCycle inp).Inv :=
  h.congr (by simp) (by simp) (by simp) (by simp) (by simp)

theorem State.Inv.setPc (h : s.Inv) {a : Word} (ha : a.toNat ≤ 0x10FE) : (s.setPc a).Inv :=
  ⟨h.memory, h.stackPointer, ha, h.returns, h.program⟩

/-- A pushed return address is in range if PC is (R27). -/
theorem State.Inv.pushed (h : s.Inv) (hsp : s.sp < 16) (hpc : s.pc.toNat ≤ 0x1000) : (s.pushed s.pc).Inv where
  memory := h.memory
  stackPointer := hsp
  pcBound := h.pcBound
  returns k hk hlt := by
    simp only [State.pushed_sp] at hlt
    simp only [State.pushed_stack, Vector.getElem_setIfInBounds]
    split
    · exact hpc
    · exact h.returns k hk (by omega)
  program := h.program

theorem State.Inv.popped (h : s.Inv) : s.popped.Inv where
  memory := h.memory
  stackPointer := (Nat.sub_le _ _).trans h.stackPointer
  pcBound := h.pcBound
  returns k hk hlt := h.returns k hk (hlt.trans_le (Nat.sub_le _ _))
  program := h.program

/-- The top of a stack in use is a return address (R26). -/
theorem State.Inv.stackTop_le (h : s.Inv) (hsp : s.sp ≠ 0) : s.stackTop.toNat ≤ 0x1000 := by
  have hle := h.stackPointer
  rw [s.stackTop_eq (s.sp - 1) (by omega) (by omega)]
  exact h.returns _ _ (by omega)

/-- Inside its program PC is below 4096 (R40, R53). -/
theorem State.Inv.pc_lt (h : s.Inv) (he : s.pc.toNat < s.endAddr) : s.pc.toNat < 0x1000 := by
  have := h.program
  simp only [State.endAddr, Config.progBase] at he
  omega

/-- An advanced PC is in range for every instruction: a skip, a call and a roll-back stay below the bounds (R91). -/
theorem exec_keeps_inv {i : Instr} (h : s.Inv) (hlo : 2 ≤ s.pc.toNat) (hhi : s.pc.toNat ≤ 0x1000)
    (ht : exec i s = .next t) : t.Inv := by
  cases exec_effect ht with
  | halt => exact h.halt _
  | call nnn hsp => exact (h.pushed hsp hhi).setPc ((toNat_zext16_le nnn).trans (by decide))
  | ret hsp => exact h.popped.setPc ((h.stackTop_le hsp).trans (by decide))
  | jump _ ha => exact h.setPc ha
  | skip c => exact h.setPc (by split <;> bv_omega)
  | wait => exact h.setPc (by bv_omega)
  | store _ hwf => exact ⟨hwf h.memory, h.stackPointer, h.pcBound, h.returns, h.program⟩
  | _ => exact h.congr rfl rfl rfl rfl rfl

/-- The advance inside memory (R91). -/
theorem State.toNat_advance_pc (hpc : s.pc.toNat < 0x1000) : s.advance.pc.toNat = s.pc.toNat + 2 := by
  simp only [State.advance, State.setPc_pc]
  bv_omega

theorem dispatch_keeps_inv (h : s.Inv) (hpc : s.pc.toNat < 0x1000) (ht : dispatch s = .next t) : t.Inv := by
  have hadv := State.toNat_advance_pc hpc
  have ha : s.advance.Inv := h.setPc (hadv.trans_le (by omega))
  rcases dispatch_cases ht with ⟨bad, -, rfl⟩ | ⟨w, e, -, -, rfl⟩ | ⟨w, i, hf, -, hi⟩
  · exact h.halt _
  · exact ha.halt _
  · have hlast : s.pc.toNat + 1 < 0x1000 := by
      by_contra hge
      rw [s.fetch_error (by omega)] at hf
      cases hf
    exact exec_keeps_inv ha (by omega) (by omega) hi

end

/-- Settles O19: the dispatch step keeps the invariant, since PC is inside the program there, and the end of a cycle
touches nothing of it. -/
theorem stepKeepsInvariant : Obligations.StepKeepsInvariant := by
  intro s u h hstep
  obtain ⟨-, ⟨-, rfl⟩ | ⟨he, t, ht, rfl⟩⟩ := step_cases hstep
  · exact h.halt _
  · exact (dispatch_keeps_inv h (h.pc_lt he) ht).endCycle _

/-- Settles O20: memory lists nothing and the stack is empty. -/
theorem resetMeetsInvariant : Obligations.ResetMeetsInvariant where
  memory := Memory.wf_reset
  stackPointer := by decide
  pcBound := by decide
  returns k _ hk := absurd hk (Nat.not_lt_zero k)
  program := by decide

/-! ### Return, call and initialisation -/

/-- Settles O30: both cases of `pop`. -/
theorem returnPopsStack : Obligations.ReturnPopsStack := by
  refine fun s => ⟨fun k hk hsp => ?_, fun hsp => ?_⟩
  · refine ⟨s.popped.setPc s.stackTop, by simp [exec, execRet, State.pop, hsp], s.stackTop_eq k hk hsp, ?_, rfl⟩
    simp [hsp]
  · exact ⟨s.halt (.stackUnderflow s.instrAddr), s.instrAddr, by simp [exec, execRet, State.pop, hsp], rfl⟩

/-- Settles O31: both cases of `push`; the entry written is the one at SP. -/
theorem callPushesReturnAddress : Obligations.CallPushesReturnAddress := by
  refine fun s nnn => ⟨fun hsp => ?_, fun hsp => ?_⟩
  · refine ⟨(s.pushed s.pc).jumpTo nnn, by simp [exec, execCall, State.push, hsp], toNat_zext16 nnn, rfl, ?_, ?_⟩
    · simp [State.jumpTo]
    · intro k hk hne
      simp [State.jumpTo, Ne.symm hne]
  · exact ⟨s.halt (.stackOverflow s.instrAddr), s.instrAddr, by simp [exec, execCall, State.push, hsp], rfl⟩

/-- A ROM that fits is loaded: only memory and the program size differ from the state before the load (R262). -/
theorem State.initialise_of_fits (p : LaunchParams) {rom : List Byte} (h : rom.length ≤ 3584) :
    State.initialise p rom =
      { State.blank p with mem := (State.blank p).mem.writeAll 0x200 rom, programSize := rom.length } :=
  if_neg (Nat.not_lt.mpr h)

/-- Settles O58: the load leaves every register as `State.blank` has it. -/
theorem initialRegisters : Obligations.InitialRegisters := by
  intro p rom h
  rw [State.initialise_of_fits p h]
  have hv (r : Nibble) : State.reset.getV r = 0#8 := by simp [State.getV, State.reset]
  have hstack (k : Nat) (hk : k < 16) : State.reset.stack[k] = 0#16 := by simp [State.reset]
  exact ⟨rfl, hv, rfl, rfl, hstack, rfl, rfl, Display.pixel_clear, rfl, rfl, rfl, rfl, rfl, rfl, rfl, rfl⟩

end Sys2Proof.Machine
end

section
/-! PROOFS. Memory: byte and word access (R55 to R58), what an instruction leaves of it (R51), accesses at I past its end
(R60, R61), a fetch after a store (R65), and its contents after initialisation (R53, R260, R262). -/

namespace Sys2Proof.Machine

/-! ### Byte and word access -/

/-- A byte write leaves every read at another address, in bounds or not (R57). -/
theorem State.memRead_setByte_ne (s : State) {a c : Nat} (b : Byte) (h : c ≠ a) :
    (s.setByte a b).memRead c = s.memRead c := by
  simp only [State.memRead, State.setByte_mem, Memory.read_write_ne s.mem b h]

/-- Settles O14: both outcomes of a word read. -/
theorem wordReadIsBigEndian : Obligations.WordReadIsBigEndian :=
  fun s _ => ⟨fun h => ⟨_, s.memReadWord_ok h, toNat_wordOfBytes _ _⟩, s.memReadWord_error⟩

/-- Settles O15: a write in bounds is `State.setByte`, whose byte reads back. -/
theorem byteAccess : Obligations.ByteAccess := by
  refine fun s a b => ⟨fun h => ⟨s.memRead_ok h, s.setByte a b, s.memWrite_ok b h, rfl, ?_, ?_⟩,
    fun h => ⟨s.memRead_error h, s.memWrite_error b h⟩⟩
  · rw [State.memRead_ok _ h, State.setByte_mem, Memory.read_write_same]
  · exact fun c => s.memRead_setByte_ne b

/-! ### The memory frame -/

/-- Settles O24, by the effect: only a store writes memory, inside the bytes it names. -/
theorem memoryFrame : Obligations.MemoryFrame := by
  intro i s t h _ a ha
  cases exec_effect h with
  | store hm => exact hm a ha
  | _ => rfl

/-! ### Accesses at I past the end of memory -/

/-- A store at I that passes the end of memory ends the run (R60, R163, R164). -/
theorem State.storeBytes_status_outOfBounds (s : State) (bs : List Byte) (hb : bs.length ≠ 0)
    (h : 4096 < s.i.toNat + bs.length) :
    (s.storeBytes (s.effAddr 0) bs).status = .halted (.outOfBounds (s.pc - 2#16) (max s.i.toNat 4096)) := by
  rw [State.storeBytes_outOfBounds bs s (s.effAddr 0) h (mt List.length_eq_zero_iff.mpr hb)]
  rfl

/-- Settles O49: the four instructions that access bytes at I. -/
theorem accessPastMemoryHalts : Obligations.AccessPastMemoryHalts := by
  intro i s hn h
  cases i with
  | drw x y n =>
    have hread := State.readBytes_outOfBounds n.toNat s (s.effAddr 0) h hn
    exact ⟨s.halt (.outOfBounds s.instrAddr (max (s.effAddr 0) 4096)), by simp only [exec, execDrw, hread], rfl⟩
  | ldBVx x => exact ⟨_, rfl, s.storeBytes_status_outOfBounds _ hn h⟩
  | ldMiVx x =>
    have hlen : (s.regsUpTo x).length = bytesAtI (.ldMiVx x) := length_regsUpTo s x
    exact ⟨_, rfl, s.storeBytes_status_outOfBounds _ (hlen ▸ hn) (hlen ▸ h)⟩
  | ldVxMi x =>
    have hload := (State.loadRegs_frame (x.toNat + 1) s (s.effAddr 0) 0).2 h hn
    exact ⟨_, rfl, by rw [hload]; rfl⟩
  | _ => exact absurd rfl hn

/-! ### A fetch after a store -/

/-- The byte at `a` after a store of `n` bytes at I, `stored j` the byte that goes to I + j. -/
def State.byteAfterStore (s : State) (stored : Nat → Byte) (n a : Nat) : Byte :=
  if s.i.toNat ≤ a ∧ a < s.i.toNat + n then stored (a - s.i.toNat) else s.mem.read a

/-- Reading after a store at I that fits. -/
theorem State.read_storeBytes (s : State) {bs : List Byte} {n : Nat} {stored : Nat → Byte} (hlen : bs.length = n)
    (hstored : ∀ j, j < n → bs.getD j 0#8 = stored j) (h : s.effAddr 0 + n ≤ 4096) (a : Nat) :
    (s.storeBytes (s.effAddr 0) bs).mem.read a = s.byteAfterStore stored n a := by
  subst hlen
  rw [State.storeBytes_ok bs s _ h, Memory.read_writeAll]
  exact ite_congr rfl (fun ha => hstored _ (Nat.sub_lt_left_of_lt_add ha.1 ha.2)) (fun _ => rfl)

/-- A store at I that fits leaves PC, and the fetch after its cycle sees what it stored (R65). -/
theorem State.fetch_storeBytes (s : State) {bs : List Byte} {n : Nat} {stored : Nat → Byte} (hlen : bs.length = n)
    (hstored : ∀ j, j < n → bs.getD j 0#8 = stored j) (h : s.effAddr 0 + n ≤ 4096) (hpc : s.pc.toNat + 1 < 4096)
    (inp : CycleInput) :
    (s.storeBytes (s.effAddr 0) bs).pc = s.pc ∧
      ((s.storeBytes (s.effAddr 0) bs).endCycle inp).fetch =
        .ok (wordOfBytes (s.byteAfterStore stored n s.pc.toNat) (s.byteAfterStore stored n (s.pc.toNat + 1))) := by
  have hkeep : (s.storeBytes (s.effAddr 0) bs).pc = s.pc := by rw [State.storeBytes_ok bs s _ (hlen ▸ h)]
  refine ⟨hkeep, ?_⟩
  rw [State.endCycle_fetch, State.fetch_ok _ (hkeep.symm ▸ hpc), hkeep, s.read_storeBytes hlen hstored h,
    s.read_storeBytes hlen hstored h]

/-- Settles O50: digits and registers are stored bytes of known number and value. -/
theorem storedWordIsFetched : Obligations.StoredWordIsFetched := by
  refine fun s x inp hpc => ⟨fun h => ⟨_, rfl, ?_⟩, fun h => ⟨_, rfl, ?_⟩⟩
  · exact s.fetch_storeBytes (length_bcdDigits _) (fun _ => getD_bcdDigits _) h hpc inp
  · exact s.fetch_storeBytes (length_regsUpTo s x) (fun _ => getD_regsUpTo s x) h hpc inp

/-! ### Initial memory -/

/-- Outside the font memory starts as 0 (R53). -/
theorem Memory.base_of_not_font {a : Nat} (h : ¬(0x050 ≤ a ∧ a < 0x0A0)) : Memory.base a = 0#8 := by
  by_cases ha : 0x050 ≤ a
  · have hlen : defaultFontBytes.length ≤ a - 0x050 := (show 80 ≤ a - 0x050 by omega)
    exact (if_pos ha).trans (List.getD_eq_default _ _ hlen)
  · exact if_neg ha

/-- Before the load memory is the font and zeros (R260). -/
theorem State.read_blank (p : LaunchParams) (a : Nat) :
    (State.blank p).mem.read a = if 0x050 ≤ a ∧ a < 0x0A0 then p.font.toList.getD (a - 0x050) 0#8 else 0#8 := by
  have hend : Config.fontBase + p.font.toList.length = 0x0A0 := congrArg (Config.fontBase + ·) Vector.length_toList
  rw [State.blank, Memory.read_writeAll, hend]
  exact ite_congr rfl (fun _ => rfl) Memory.base_of_not_font

/-- A ROM that is too long only ends the run (R262; decision D19). -/
theorem State.initialise_of_too_long (p : LaunchParams) {rom : List Byte} (h : 3584 < rom.length) :
    State.initialise p rom = (State.blank p).halt (.outOfSpace rom.length) :=
  if_pos h

/-- Settles O57: the ROM is written over the blank memory, or nothing is. -/
theorem initialMemoryMap : Obligations.InitialMemoryMap := by
  refine fun p rom a => ⟨fun h => ?_, fun h => ?_⟩
  · rw [State.initialise_of_fits p h, ← State.read_blank]
    exact Memory.read_writeAll rom _ 0x200 a
  · rw [State.initialise_of_too_long p h]
    exact ⟨rfl, State.read_blank p a⟩

end Sys2Proof.Machine
end

section
/-! PROOFS. The encoding: decoder and encoder are inverse to each other (R72, R74, R76), the decoder agrees with the
opcode table (R74), and the words it refuses are the classes of R75. -/

namespace Sys2Proof

/-! ### Decode after encode -/

/-- Settles O2: the round trip of each instruction. -/
theorem decodeOfEncode : Obligations.DecodeOfEncode := by
  intro i
  cases i with
  | cls => exact Laws.RoundTrip.cls
  | ret => exact Laws.RoundTrip.ret
  | sys nnn => exact Laws.RoundTrip.sys nnn
  | jp nnn => exact Laws.RoundTrip.jp nnn
  | call nnn => exact Laws.RoundTrip.call nnn
  | seVxKk x kk => exact Laws.RoundTrip.seVxKk x kk
  | sneVxKk x kk => exact Laws.RoundTrip.sneVxKk x kk
  | seVxVy x y => exact Laws.RoundTrip.seVxVy x y
  | ldVxKk x kk => exact Laws.RoundTrip.ldVxKk x kk
  | addVxKk x kk => exact Laws.RoundTrip.addVxKk x kk
  | ldVxVy x y => exact Laws.RoundTrip.ldVxVy x y
  | or x y => exact Laws.RoundTrip.or x y
  | and x y => exact Laws.RoundTrip.and x y
  | xor x y => exact Laws.RoundTrip.xor x y
  | addVxVy x y => exact Laws.RoundTrip.addVxVy x y
  | sub x y => exact Laws.RoundTrip.sub x y
  | shr x y => exact Laws.RoundTrip.shr x y
  | subn x y => exact Laws.RoundTrip.subn x y
  | shl x y => exact Laws.RoundTrip.shl x y
  | sneVxVy x y => exact Laws.RoundTrip.sneVxVy x y
  | ldINnn nnn => exact Laws.RoundTrip.ldINnn nnn
  | jpV0 nnn => exact Laws.RoundTrip.jpV0 nnn
  | rnd x kk => exact Laws.RoundTrip.rnd x kk
  | drw x y n => exact Laws.RoundTrip.drw x y n
  | skp x => exact Laws.RoundTrip.skp x
  | sknp x => exact Laws.RoundTrip.sknp x
  | ldVxDt x => exact Laws.RoundTrip.ldVxDt x
  | ldVxK x => exact Laws.RoundTrip.ldVxK x
  | ldDtVx x => exact Laws.RoundTrip.ldDtVx x
  | ldStVx x => exact Laws.RoundTrip.ldStVx x
  | addIVx x => exact Laws.RoundTrip.addIVx x
  | ldFVx x => exact Laws.RoundTrip.ldFVx x
  | ldBVx x => exact Laws.RoundTrip.ldBVx x
  | ldMiVx x => exact Laws.RoundTrip.ldMiVx x
  | ldVxMi x => exact Laws.RoundTrip.ldVxMi x

/-! ### Encode after decode -/

section
variable {w : Word} {f n : Nibble} {kk : Byte} {i : Instr}

theorem encodeNnn_of_highNibble (hf : highNibble w = f) : encodeNnn f (fieldNnn w) = w :=
  hf ▸ encodeNnn_fields w

theorem encodeXKk_of_fields (hf : highNibble w = f) (hkk : fieldKk w = kk) : encodeXKk f (fieldX w) kk = w :=
  hf ▸ hkk ▸ encodeXKk_fields w

theorem encodeXYN_of_fields (hf : highNibble w = f) (hn : lowNibble w = n) :
    encodeXYN f (fieldX w) (fieldY w) n = w :=
  hf ▸ hn ▸ encodeXYN_fields w

/-- What `EncodeOfDecode` says of one word: `i` is a well-formed instruction and `w` is its word. -/
def IsWordOf (w : Word) (i : Instr) : Prop := i.wf = true ∧ encode i = w

/-- The two exact words of family 0 are not words of `SYS` (R72). -/
theorem isWordOf_decodeFamily0 (hf : highNibble w = 0x0#4) : IsWordOf w (decodeFamily0 w) := by
  have hw : encodeNnn 0x0#4 (fieldNnn w) = w := encodeNnn_of_highNibble hf
  unfold decodeFamily0
  split_ifs with hcls hret
  · exact ⟨rfl, hcls.symm⟩
  · exact ⟨rfl, hret.symm⟩
  · refine ⟨?_, hw⟩
    rw [Instr.wf, Bool.and_eq_true, bne_iff_ne, bne_iff_ne]
    exact ⟨fun e => hcls (hw.symm.trans (congrArg (encodeNnn 0x0#4) e)),
      fun e => hret (hw.symm.trans (congrArg (encodeNnn 0x0#4) e))⟩

theorem isWordOf_of_decodeFamily8 (hf : highNibble w = 0x8#4) (h : decodeFamily8 w = .ok i) : IsWordOf w i := by
  simp only [decodeFamily8] at h
  split_ifs at h <;> cases h <;> exact ⟨rfl, encodeXYN_of_fields hf ‹_›⟩

theorem isWordOf_of_decodeFamilyE (hf : highNibble w = 0xE#4) (h : decodeFamilyE w = .ok i) : IsWordOf w i := by
  simp only [decodeFamilyE] at h
  split_ifs at h <;> cases h <;> exact ⟨rfl, encodeXKk_of_fields hf ‹_›⟩

theorem isWordOf_of_decodeFamilyF (hf : highNibble w = 0xF#4) (h : decodeFamilyF w = .ok i) : IsWordOf w i := by
  simp only [decodeFamilyF] at h
  split_ifs at h <;> cases h <;> exact ⟨rfl, encodeXKk_of_fields hf ‹_›⟩

end

/-- Settles O3, family by family: a decoded word is put together again from its fields. -/
theorem encodeOfDecode : Obligations.EncodeOfDecode := by
  intro w i h
  rcases nibble_cases (highNibble w) with f | f | f | f | f | f | f | f | f | f | f | f | f | f | f | f
  · rw [decode_family_0 f] at h; cases h; exact isWordOf_decodeFamily0 f
  · rw [decode_family_1 f] at h; cases h; exact ⟨rfl, encodeNnn_of_highNibble f⟩
  · rw [decode_family_2 f] at h; cases h; exact ⟨rfl, encodeNnn_of_highNibble f⟩
  · rw [decode_family_3 f] at h; cases h; exact ⟨rfl, encodeXKk_of_fields f rfl⟩
  · rw [decode_family_4 f] at h; cases h; exact ⟨rfl, encodeXKk_of_fields f rfl⟩
  · rw [decode_family_5 f] at h; split_ifs at h with hn; cases h; exact ⟨rfl, encodeXYN_of_fields f hn⟩
  · rw [decode_family_6 f] at h; cases h; exact ⟨rfl, encodeXKk_of_fields f rfl⟩
  · rw [decode_family_7 f] at h; cases h; exact ⟨rfl, encodeXKk_of_fields f rfl⟩
  · exact isWordOf_of_decodeFamily8 f (decode_family_8 f ▸ h)
  · rw [decode_family_9 f] at h; split_ifs at h with hn; cases h; exact ⟨rfl, encodeXYN_of_fields f hn⟩
  · rw [decode_family_A f] at h; cases h; exact ⟨rfl, encodeNnn_of_highNibble f⟩
  · rw [decode_family_B f] at h; cases h; exact ⟨rfl, encodeNnn_of_highNibble f⟩
  · rw [decode_family_C f] at h; cases h; exact ⟨rfl, encodeXKk_of_fields f rfl⟩
  · rw [decode_family_D f] at h; cases h; exact ⟨rfl, encodeXYN_of_fields f rfl⟩
  · exact isWordOf_of_decodeFamilyE f (decode_family_E f ▸ h)
  · exact isWordOf_of_decodeFamilyF f (decode_family_F f ▸ h)

/-! ### The decoder and the opcode table -/

section
variable {w p : Word}

theorem encodeXKk_and_encodeXKk (f g x y : Nibble) (a b : Byte) :
    encodeXKk f x a &&& encodeXKk g y b = encodeXKk (f &&& g) (x &&& y) (a &&& b) := by
  rw [encodeXKk, encodeXKk, encodeXKk, ← BitVec.and_append]
  exact BitVec.and_append

theorem encodeXYN_and_encodeXYN (f g x x' y y' n n' : Nibble) :
    encodeXYN f x y n &&& encodeXYN g x' y' n' = encodeXYN (f &&& g) (x &&& x') (y &&& y') (n &&& n') := by
  rw [encodeXYN, encodeXYN, encodeXYN, ← BitVec.and_append, ← BitVec.and_append]
  exact BitVec.and_append

/-- The mask of the rows whose pattern has no field but the family (R74). -/
theorem and_F000 (w : Word) : w &&& 0xF000#16 = encodeNnn (highNibble w) 0#12 := by
  calc w &&& 0xF000#16
    _ = encodeNnn (highNibble w) (fieldNnn w) &&& encodeNnn (.allOnes 4) 0#12 := by rw [encodeNnn_fields]; rfl
    _ = encodeNnn (highNibble w &&& .allOnes 4) (fieldNnn w &&& 0#12) := BitVec.and_append
    _ = encodeNnn (highNibble w) 0#12 := by rw [BitVec.and_allOnes, BitVec.and_zero]

/-- The mask of the rows whose sub-opcode is `n` (R74). -/
theorem and_F00F (w : Word) : w &&& 0xF00F#16 = encodeXYN (highNibble w) 0#4 0#4 (lowNibble w) := by
  calc w &&& 0xF00F#16
    _ = encodeXYN (highNibble w) (fieldX w) (fieldY w) (lowNibble w) &&&
          encodeXYN (.allOnes 4) 0#4 0#4 (.allOnes 4) := by rw [encodeXYN_fields]; rfl
    _ = encodeXYN (highNibble w) 0#4 0#4 (lowNibble w) := by
      simp only [encodeXYN_and_encodeXYN, BitVec.and_allOnes, BitVec.and_zero]

/-- The mask of the rows whose sub-opcode is `kk` (R74). -/
theorem and_F0FF (w : Word) : w &&& 0xF0FF#16 = encodeXKk (highNibble w) 0#4 (fieldKk w) := by
  calc w &&& 0xF0FF#16
    _ = encodeXKk (highNibble w) (fieldX w) (fieldKk w) &&& encodeXKk (.allOnes 4) 0#4 (.allOnes 8) := by
      rw [encodeXKk_fields]; rfl
    _ = encodeXKk (highNibble w) 0#4 (fieldKk w) := by
      simp only [encodeXKk_and_encodeXKk, BitVec.and_allOnes, BitVec.and_zero]

/-! What the test of a row says of the word's fields, for a pattern inside the row's mask. The pattern's fields stand as
extracts, which `simp` computes for a row of the table. -/

theorem and_F000_eq_iff (hp : p &&& 0xF000#16 = p) : w &&& 0xF000#16 = p ↔ highNibble w = p.extractLsb' 12 4 := by
  rw [and_F000] at hp ⊢
  refine ⟨fun e => ?_, fun hf => hf ▸ hp⟩
  rw [← e]
  exact (highNibble_encodeNnn _ _).symm

theorem and_F00F_eq_iff (hp : p &&& 0xF00F#16 = p) :
    w &&& 0xF00F#16 = p ↔ highNibble w = p.extractLsb' 12 4 ∧ lowNibble w = p.extractLsb' 0 4 := by
  rw [and_F00F] at hp ⊢
  refine ⟨fun e => ?_, fun ⟨hf, hn⟩ => hf ▸ hn ▸ hp⟩
  rw [← e]
  exact ⟨(highNibble_encodeXYN _ _ _ _).symm, (lowNibble_encodeXYN _ _ _ _).symm⟩

theorem and_F0FF_eq_iff (hp : p &&& 0xF0FF#16 = p) :
    w &&& 0xF0FF#16 = p ↔ highNibble w = p.extractLsb' 12 4 ∧ fieldKk w = p.extractLsb' 0 8 := by
  rw [and_F0FF] at hp ⊢
  refine ⟨fun e => ?_, fun ⟨hf, hkk⟩ => hf ▸ hkk ▸ hp⟩
  rw [← e]
  exact ⟨(highNibble_encodeXKk _ _ _).symm, (fieldKk_encodeXKk _ _ _).symm⟩

/-- An exact word is of its own family. -/
theorem and_FFFF_eq_iff : w &&& 0xFFFF#16 = p ↔ highNibble w = p.extractLsb' 12 4 ∧ w = p := by
  have hw : w &&& 0xFFFF#16 = w := BitVec.and_allOnes
  rw [hw]
  exact ⟨fun e => ⟨congrArg highNibble e, e⟩, fun e => e.2⟩

end

/-- The identifier of the first of `rows` that selects a word. -/
def firstMnemonic (rows : List OpcodeRow) (w : Word) : Option String :=
  (rows.find? (fun r => r.selects w)).map OpcodeRow.mnemonic

theorem tableMnemonic_eq_firstMnemonic (w : Word) : tableMnemonic w = firstMnemonic opcodeTable w := rfl

@[simp] theorem firstMnemonic_nil (w : Word) : firstMnemonic [] w = none := rfl

@[simp] theorem firstMnemonic_cons (m : String) (p k : Word) (rows : List OpcodeRow) (w : Word) :
    firstMnemonic (⟨m, p, k⟩ :: rows) w = if w &&& k = p then some m else firstMnemonic rows w := by
  simp only [firstMnemonic, List.find?_cons, OpcodeRow.selects]
  by_cases h : w &&& k = p
  · simp [h]
  · simp [h, beq_false_of_ne h]

/-- The identifier of a decoded instruction, none for a refused word. -/
def mnemonicOf : Except DecodeError Instr → Option String
  | .ok i => some i.mnemonic
  | .error _ => none

@[simp] theorem mnemonicOf_ok (i : Instr) : mnemonicOf (.ok i) = some i.mnemonic := rfl

@[simp] theorem mnemonicOf_error (e : DecodeError) : mnemonicOf (.error e) = none := rfl

@[simp] theorem mnemonicOf_ite (c : Prop) [Decidable c] (a b : Except DecodeError Instr) :
    mnemonicOf (if c then a else b) = if c then mnemonicOf a else mnemonicOf b :=
  apply_ite mnemonicOf c a b

theorem some_mnemonic_decodeFamily0 (w : Word) :
    some (decodeFamily0 w).mnemonic =
      if w = 0x00E0#16 then some "CLS" else if w = 0x00EE#16 then some "RET" else some "SYS" := by
  unfold decodeFamily0
  split_ifs <;> rfl

/-- Within one family the rows that are left test the sub-opcode as the decoder does, in the same order. -/
theorem tableMnemonic_eq (w : Word) : tableMnemonic w = mnemonicOf (decode w) := by
  rw [tableMnemonic_eq_firstMnemonic]
  rcases nibble_cases (highNibble w) with f | f | f | f | f | f | f | f | f | f | f | f | f | f | f | f
  all_goals
    simp (disch := decide) [opcodeTable, opcodeRowsA, opcodeRowsB, opcodeRowsC, and_F000_eq_iff, and_F00F_eq_iff,
      and_F0FF_eq_iff, and_FFFF_eq_iff, f, decode, decodeFamily8, decodeFamilyE, decodeFamilyF,
      ↓some_mnemonic_decodeFamily0, Instr.mnemonic]

/-- Settles O4: `mnemonicOf` is the case distinction of the statement. -/
theorem decoderAgreesWithTable : Obligations.DecoderAgreesWithTable := tableMnemonic_eq

/-! ### The invalid words -/

section
variable {w : Word}

/-- A word is refused by a decoder branch when its row's test fails and the branches after it refuse it. -/
@[simp] theorem ite_ok_eq_error_iff {c : Prop} [Decidable c] {i : Instr} {d : Except DecodeError Instr}
    {e : DecodeError} : (if c then .ok i else d) = .error e ↔ ¬c ∧ d = .error e := by
  by_cases h : c <;> simp [h]

theorem decodeFamily8_error_iff : decodeFamily8 w = .error (.invalidOpcode w) ↔
    (lowNibble w).toNat ∈ [0x8, 0x9, 0xA, 0xB, 0xC, 0xD, 0xF] := by
  rcases nibble_cases (lowNibble w) with n | n | n | n | n | n | n | n | n | n | n | n | n | n | n | n
  all_goals simp [decodeFamily8, n]

theorem decodeFamilyE_error_iff : decodeFamilyE w = .error (.invalidOpcode w) ↔
    (fieldKk w).toNat ∉ [0x9E, 0xA1] := by
  simp [decodeFamilyE, BitVec.toNat_eq]

theorem decodeFamilyF_error_iff : decodeFamilyF w = .error (.invalidOpcode w) ↔
    (fieldKk w).toNat ∉ [0x07, 0x0A, 0x15, 0x18, 0x1E, 0x29, 0x33, 0x55, 0x65] := by
  simp [decodeFamilyF, BitVec.toNat_eq]

end

/-- Settles O5, family by family, with the classes read as conditions on a word's fields. -/
theorem invalidWordsAreTheFiveClasses : Obligations.InvalidWordsAreTheFiveClasses := by
  intro w
  simp only [← toNat_highNibble, ← toNat_lowNibble, ← toNat_fieldKk]
  rcases nibble_cases (highNibble w) with f | f | f | f | f | f | f | f | f | f | f | f | f | f | f | f
  all_goals
    simp [f, decode, decodeFamily8_error_iff, decodeFamilyE_error_iff, decodeFamilyF_error_iff, BitVec.toNat_eq]

end Sys2Proof
end

section
/-! PROOFS. The dispatch step (R91) and the machine cycle around it (R95 to R97): what the end of a cycle changes, and what a
step does for each outcome of its fetch and its decode. -/

namespace Sys2Proof.Machine

/-! ### The events after a dispatch step -/

/-- A timer counts down by 1 and stops at 0 (R230). -/
@[simp] theorem toNat_countDown (b : Byte) : (countDown b).toNat = b.toNat - 1 := by
  unfold countDown
  split
  · next h => simp [h]
  · next h => bv_omega

/-- The tick writes the two timers, a sample without the termination key the two key sets (R95, R97). -/
theorem State.tickAndSample_eq (t : State) {inp : CycleInput} (h : ¬(inp.sample = true ∧ inp.term = true)) :
    t.tickAndSample inp =
      { t with
        dt := if inp.tick then countDown t.dt else t.dt
        st := if inp.tick then countDown t.st else t.st
        latch := if inp.sample then inp.down &&& ~~~t.prevDown else t.latch
        prevDown := if inp.sample then inp.down else t.prevDown } := by
  unfold State.tickAndSample State.inputSample
  cases ht : inp.tick <;> cases hs : inp.sample
  case false.false | true.false => rfl
  case false.true | true.true =>
    have hterm : inp.term = false := by simpa [hs] using h
    rw [hterm]
    rfl

/-- A render of a running machine clears the dirty flag and nothing else (R243). -/
theorem State.maybeRender_eq (t : State) (inp : CycleInput) (h : t.status = .running) :
    t.maybeRender inp = { t with dirty := t.dirty && !inp.render } := by
  have hrender : t.maybeRender inp = if inp.render && t.dirty then t.clearDirty else t := by
    simp only [State.maybeRender, h, State.renderEvent]
  rw [hrender]
  cases inp.render with
  | false => simp
  | true =>
    cases hd : t.dirty with
    | false =>
      show t = { t with dirty := false }
      rw [← hd]
    | true => rfl

/-- All a running machine's cycle does after the dispatch step, if no termination key ends it (R95, R97). -/
theorem State.endCycle_eq (t : State) {inp : CycleInput} (hr : t.status = .running)
    (h : ¬(inp.sample = true ∧ inp.term = true)) :
    t.endCycle inp =
      { t with
        dt := if inp.tick then countDown t.dt else t.dt
        st := if inp.tick then countDown t.st else t.st
        latch := if inp.sample then inp.down &&& ~~~t.prevDown else t.latch
        prevDown := if inp.sample then inp.down else t.prevDown
        dirty := t.dirty && !inp.render
        inputs := t.inputs.tail
        cycle := t.cycle + 1 } := by
  have hr' : (t.tickAndSample inp).status = .running := by
    rw [t.tickAndSample_eq h]
    exact hr
  rw [t.endCycle_running inp hr, State.maybeRender_eq _ inp hr', t.tickAndSample_eq h]
  rfl

/-- Settles O8: the cycle's end is the record of `State.endCycle_eq`, whose timers are counted down. -/
theorem cycleEventsFollowDispatch : Obligations.CycleEventsFollowDispatch := by
  intro s t hs he ht hr hterm
  refine ⟨t.endCycle s.input, step_running hs he ht, ?_⟩
  rw [t.endCycle_eq hr hterm]
  have hcount (b : Byte) : (if s.input.tick then countDown b else b).toNat =
      if s.input.tick then b.toNat - 1 else b.toNat := by
    split <;> simp
  exact ⟨hcount t.dt, hcount t.st, rfl, rfl, rfl, rfl⟩

/-! ### A step for each outcome of the end check, the fetch and the decode -/

/-- PC at or beyond END ends the run (R96). -/
theorem step_programEnd {s : State} (hr : s.status = .running) (he : s.endAddr ≤ s.pc.toNat) :
    step s = .next (s.halt (.programEnd s.pc)) := by
  simp [step, runCycle, hr, he]

/-- A halted machine has no cycle (R39). -/
theorem step_halted {s : State} {r : HaltReason} (h : s.status = .halted r) : step s = .fault (.halted r) := by
  simp [step, runCycle, h]

/-- A dispatch step that ends the run is the whole of its cycle (R94). -/
theorem step_of_dispatch_halted {s t : State} {r : HaltReason} (hr : s.status = .running)
    (he : s.pc.toNat < s.endAddr) (ht : dispatch s = .next t) (h : t.status = .halted r) : step s = .next t := by
  rw [step_running hr he ht, t.endCycle_halted _ h]

/-- The dispatch step on a fetch out of bounds. -/
theorem dispatch_of_fetch_error {s : State} {bad : Nat} (hf : s.fetch = .error bad) :
    dispatch s = .next (s.halt (.outOfBounds s.pc bad)) := by
  simp [dispatch, hf]

/-- The dispatch step on a word that does not decode. -/
theorem dispatch_of_decode_error {s : State} {w : Word} {e : DecodeError} (hf : s.fetch = .ok w)
    (hd : decode w = .error e) : dispatch s = .next (s.advance.halt (.invalidOpcode s.pc w)) := by
  simp [dispatch, hf, hd]

/-- Settles O6: the dispatch step is the decoded instruction on the advanced state. -/
theorem stepRunsDecodedInstruction : Obligations.StepRunsDecodedInstruction := by
  intro s i hr he hpc hd
  obtain ⟨t, ht⟩ := exec_next i { s with pc := s.pc + 2#16 }
  have hdispatch : dispatch s = .next t := (dispatch_ok (s.fetch_ok hpc) hd).trans ht
  rw [ht, step_running hr he hdispatch]

/-- Settles O10: the end check, and no step of a halted machine. -/
theorem endOfProgramAndAfter : Obligations.EndOfProgramAndAfter :=
  fun _ => ⟨step_programEnd, fun _ => step_halted⟩

/-- Settles O11: the dispatch step ends the run with the record. -/
theorem invalidWordHalts : Obligations.InvalidWordHalts := by
  rintro s hr he hpc ⟨e, hd⟩
  exact ⟨_, step_of_dispatch_halted hr he (dispatch_of_decode_error (s.fetch_ok hpc) hd) rfl, rfl⟩

/-- Settles O12: the invariant bounds the program size, so that PC below END is at most 0xFFF, where the second byte of the
word is out of bounds. -/
theorem fetchFailsOnlyAtLastByte : Obligations.FetchFailsOnlyAtLastByte := by
  refine fun s h hr he => ⟨fun hpc => ⟨_, s.fetch_ok (by omega)⟩, fun hpc => ?_⟩
  have hlt : s.pc.toNat < 0x1000 := h.pc_lt he
  have hlast : s.pc = 0xFFF#16 := by bv_omega
  have hsize := h.program
  have hf : s.fetch = .error 0x1000 := by rw [s.fetch_error (by omega), Nat.max_eq_right hlt.le]
  exact ⟨hlast, by omega, _, step_of_dispatch_halted hr he (dispatch_of_fetch_error hf) rfl, by rw [← hlast]; rfl⟩

/-! ### Placing an instruction -/

/-- Below 0xFFF the bytes at PC of a placed word make up the word (R55). -/
theorem State.fetch_placeWord (s : State) (w : Word) (h : s.pc.toNat + 1 < 4096) : (s.placeWord w).fetch = .ok w := by
  have hmem : (s.placeWord w).mem = s.mem.writeAll s.pc.toNat (bytesOfWord w) := if_pos h
  have hpc : (s.placeWord w).pc = s.pc := rfl
  rw [(s.placeWord w).fetch_ok h, hmem, hpc, Memory.read_writeAll, Memory.read_writeAll]
  simp [bytesOfWord, wordOfBytes_bytesOfWord]

/-- Below 0xFFF PC lies inside the program after a word is placed (R96). -/
theorem State.pc_lt_endAddr_placeWord (s : State) (w : Word) (h : s.pc.toNat + 1 < 4096) :
    s.pc.toNat < (s.placeWord w).endAddr := by
  simp only [State.endAddr, State.placeWord, Config.progBase, Config.maxProgram]
  omega

/-- Settles O7: `withFetchWord` places the word. -/
theorem placedWordIsFetched : Obligations.PlacedWordIsFetched :=
  fun s _ _ h => ⟨s.fetch_placeWord _ h, rfl, rfl, s.pc_lt_endAddr_placeWord _ h⟩

end Sys2Proof.Machine
end

section
/-! PROOFS. Jumps and comparing skips write PC and nothing else (R92, R111 to R118), and the return that ends a subroutine
undoes its call (R119). -/

namespace Sys2Proof.Machine

/-! ### What a write of PC leaves -/

theorem onlyPc_setPc (s : State) (a : Word) : onlyPc s (s.setPc a) := rfl

theorem noFlagNoError_setPc (s : State) (a : Word) : noFlagNoError s (s.setPc a) := ⟨rfl, rfl⟩

/-- A skip is a write of PC whose value its condition chooses (R92). -/
theorem State.skipIf_eq_setPc (s : State) {c : Bool} {p : Prop} [Decidable p] (h : c = true ↔ p) :
    s.skipIf c = s.setPc (if p then s.pc + 2#16 else s.pc) := by
  by_cases hp : p
  · rw [if_pos hp, h.mpr hp]
    rfl
  · rw [if_neg hp, Bool.eq_false_of_not_eq_true (mt h.mp hp)]
    rfl

/-- An instruction that is a skip on `c` skips exactly when `p` holds, without a flag or an error (R92). -/
theorem skips_exactly_when {i : Instr} {s : State} {c : Bool} {p : Prop} [Decidable p]
    (hi : exec i s = .next (s.skipIf c)) (h : c = true ↔ p) :
    ∃ t, exec i s = .next t ∧ noFlagNoError s t ∧ t.pc = if p then s.pc + 2#16 else s.pc := by
  rw [s.skipIf_eq_setPc h] at hi
  exact ⟨_, hi, noFlagNoError_setPc s _, rfl⟩

/-! ### Call and return -/

/-- Settles O32: the call leaves SP and the return address as `callPushesReturnAddress` says, and `returnPopsStack` reads
both back. -/
theorem callAndReturnAreInverse : Obligations.CallAndReturnAreInverse := by
  intro s t u nnn hsp ht hu hkept
  obtain ⟨_, ht', -, htsp, hpushed, -⟩ := (callPushesReturnAddress s nnn).1 hsp
  cases ht.symm.trans ht'
  obtain ⟨v, hv, hpc, hvsp, -⟩ := (returnPopsStack u).1 s.sp hsp (hu.trans htsp)
  exact ⟨v, hv, hvsp, hpc.trans (hkept.trans hpushed)⟩

/-! ### Address loads and jumps -/

/-- Settles O33: both registers take the zero-extended address. -/
theorem addressLoads : Obligations.AddressLoads :=
  fun s nnn => ⟨⟨_, rfl, toNat_zext16 nnn, noFlagNoError_setPc s _⟩, ⟨_, rfl, toNat_zext16 nnn, rfl, rfl⟩⟩

/-- The sum of `Bnnn` does not reach 2^16, so that it is exact (R118). -/
theorem toNat_zext16_add_zextByte (nnn : Addr) (b : Byte) :
    (zext16 nnn + zextByte b).toNat = nnn.toNat + b.toNat := by
  rw [BitVec.toNat_add, toNat_zext16, toNat_zextByte]
  omega

/-- Settles O34: both are a write of PC, with the address or the exact sum. -/
theorem sysAndOffsetJump : Obligations.SysAndOffsetJump :=
  fun s nnn => ⟨⟨_, rfl, toNat_zext16 nnn, onlyPc_setPc s _⟩,
    ⟨_, rfl, toNat_zext16_add_zextByte nnn _, onlyPc_setPc s _⟩⟩

/-! ### Skips -/

/-- Settles O35: each is a skip on its Boolean comparison. -/
theorem comparingSkips : Obligations.ComparingSkips :=
  fun _ _ _ _ => ⟨skips_exactly_when rfl beq_iff_eq, skips_exactly_when rfl bne_iff_ne,
    skips_exactly_when rfl beq_iff_eq, skips_exactly_when rfl bne_iff_ne⟩

end Sys2Proof.Machine
end

section
/-! PROOFS. Loads, arithmetic, shifts and the random byte (spec/42_alu.md). Each instruction writes one register, or the flag
to VF and then a register (R11); what such a write leaves and what the flags are as numbers is said once. -/

namespace Sys2Proof.Machine

/-! ### Flags and results as numbers -/

theorem toNat_flagByte (c : Bool) : (flagByte c).toNat = c.toNat := by cases c <;> rfl

theorem toNat_flagByte_decide (p : Prop) [Decidable p] : (flagByte (decide p)).toNat = if p then 1 else 0 := by
  rw [toNat_flagByte, Bool.toNat, Bool.cond_decide]

theorem toNat_carryFlag (a b : Byte) : (carryFlag a b).toNat = (decide (a.toNat + b.toNat > 255)).toNat :=
  toNat_flagByte _

theorem toNat_noBorrowFlag (a b : Byte) : (noBorrowFlag a b).toNat = (decide (a.toNat ≥ b.toNat)).toNat :=
  toNat_flagByte _

theorem toNat_shrFlag (a : Byte) : (shrFlag a).toNat = a.toNat % 2 := by
  simp [shrFlag, Nat.and_one_is_mod]

/-- The top bit is the whole of what a right shift by seven leaves, so that the mask of R143 changes nothing. -/
theorem toNat_shlFlag (mode : ShlFlagMode) (a : Byte) :
    (shlFlag mode a).toNat = match mode with
      | .topBit => a.toNat / 128
      | .legacyZero => 0 := by
  cases mode with
  | legacyZero => rfl
  | topBit =>
    have h : a.toNat / 128 < 2 := by omega
    simp [shlFlag, Nat.and_one_is_mod, Nat.shiftRight_eq_div_pow, Nat.mod_eq_of_lt h]

theorem toNat_sub_byte (a b : Byte) : (a - b).toNat = (a.toNat + 256 - b.toNat) % 256 := by
  rw [BitVec.toNat_sub]
  omega

theorem toNat_shr_one (a : Byte) : (a >>> 1).toNat = a.toNat / 2 := by
  rw [BitVec.toNat_ushiftRight, Nat.shiftRight_eq_div_pow]

theorem toNat_shl_one (a : Byte) : (a <<< 1).toNat = a.toNat * 2 % 256 := by
  rw [BitVec.toNat_shiftLeft, Nat.shiftLeft_eq]

/-- The step of the PRNG's state word (R150). -/
theorem toNat_pcgStep (old inc : BitVec 64) :
    (pcgStep old inc).toNat = (old.toNat * 6364136223846793005 + (inc.toNat ||| 1)) % 2 ^ 64 := by
  simp [pcgStep, Nat.mul_comm]

/-! ### What the register writes leave -/

/-- A flag in VF and a result in another register: both stay, and no other register changes. -/
theorem flagged_result {i : Instr} {s : State} {x : Nibble} {f b : Byte} {m n : Nat}
    (hi : exec i s = .next ((s.setV vf f).setV x b)) (hx : x ≠ vf) (hb : b.toNat = m) (hf : f.toNat = n) :
    ∃ t, exec i s = .next t ∧ onlyV s t ∧ otherRegs (fun r => r = x ∨ r = vf) s t ∧
      (t.getV x).toNat = m ∧ (t.getV vf).toNat = n := by
  refine ⟨_, hi, rfl, fun r hr => ?_, ?_, ?_⟩
  · obtain ⟨hrx, hrf⟩ := not_or.mp hr
    exact (State.getV_setV_ne _ b hrx).trans (s.getV_setV_ne f hrf)
  · rw [State.getV_setV_same, hb]
  · rw [State.getV_setV_ne _ b hx.symm, State.getV_setV_same, hf]

/-- With VF as the destination the result is what is left in it (R137). -/
theorem result_overwrites_flag {i : Instr} {s : State} {f b : Byte} {m : Nat}
    (hi : exec i s = .next ((s.setV vf f).setV vf b)) (hb : b.toNat = m) :
    ∃ t, exec i s = .next t ∧ onlyV s t ∧ otherRegs (· = vf) s t ∧ (t.getV vf).toNat = m := by
  refine ⟨_, hi, rfl, fun r hr => ?_, ?_⟩
  · exact (State.getV_setV_ne _ b hr).trans (s.getV_setV_ne f hr)
  · rw [State.getV_setV_same, hb]

/-! ### Loads and logic -/

/-- A register that is loaded reads as the value, and VF is as before unless it is the register. -/
theorem loads_register {i : Instr} {s : State} {x : Nibble} {b : Byte} (hi : exec i s = .next (s.setV x b)) :
    ∃ t, exec i s = .next t ∧ t.getV x = b ∧ (x ≠ vf → t.getV vf = s.getV vf) :=
  ⟨_, hi, s.getV_setV_same x b, fun hx => s.getV_setV_ne b hx.symm⟩

/-- A register that takes a value whose bits are known has those bits, and nothing else changes. -/
theorem combines_bits {i : Instr} {s : State} {x : Nibble} {b : Byte} {c : Nat → Bool}
    (hi : exec i s = .next (s.setV x b)) (hb : ∀ k, b.getLsbD k = c k) :
    ∃ t, exec i s = .next t ∧ onlyV s t ∧ otherRegs (· = x) s t ∧ ∀ k, (t.getV x).getLsbD k = c k :=
  ⟨_, hi, rfl, fun _ hr => s.getV_setV_ne b hr, fun k => by rw [State.getV_setV_same, hb]⟩

/-- Settles O37: each is one register write. -/
theorem loadsAndAddImmediate : Obligations.LoadsAndAddImmediate := by
  intro s x y kk
  obtain ⟨t, ht, hsum, hvf⟩ := loads_register (s := s) (i := .addVxKk x kk) rfl
  exact ⟨loads_register rfl, ⟨t, ht, by rw [hsum, BitVec.toNat_add], hvf⟩, loads_register rfl⟩

/-- Settles O38: each is one register write, of the combined bits. -/
theorem logicResults : Obligations.LogicResults :=
  fun _ _ _ => ⟨combines_bits rfl fun _ => BitVec.getLsbD_or, combines_bits rfl fun _ => BitVec.getLsbD_and,
    combines_bits rfl fun _ => BitVec.getLsbD_xor⟩

/-! ### Addition and subtraction -/

/-- Settles O39: the sum is taken before the flag is written, so that it is the same for every x and y. -/
theorem addWithCarry : Obligations.AddWithCarry := by
  intro s x y
  refine ⟨_, rfl, ?_, fun hx => ?_⟩
  · rw [State.getV_setV_same, BitVec.toNat_add]
  · rw [State.getV_setV_ne _ _ hx.symm, State.getV_setV_same, carryFlag, toNat_flagByte_decide]

/-- Settles O40: the write of VF leaves both operands. -/
theorem subtractWithNoBorrow : Obligations.SubtractWithNoBorrow := by
  intro s x y hx hy
  refine ⟨flagged_result rfl hx ?_ (toNat_flagByte_decide _), flagged_result rfl hx ?_ (toNat_flagByte_decide _)⟩ <;>
    rw [s.getV_setV_ne _ hx, s.getV_setV_ne _ hy, toNat_sub_byte]

/-! ### VF as an operand -/

/-- An entry of R137's table with VF as the source: a result in Vx and the flag in VF. -/
theorem result_and_flag {i : Instr} {s : State} {x : Nibble} {f b : Byte} {m n : Nat}
    (hi : exec i s = .next ((s.setV vf f).setV x b)) (hx : x ≠ vf) (hb : b.toNat = m) (hf : f.toNat = n) :
    ∃ t, exec i s = .next t ∧ (t.getV x).toNat = m ∧ (t.getV vf).toNat = n := by
  obtain ⟨t, ht, -, -, hres, hflag⟩ := flagged_result hi hx hb hf
  exact ⟨t, ht, hres, hflag⟩

theorem result_in_vf {i : Instr} {s : State} {f b : Byte} {m : Nat}
    (hi : exec i s = .next ((s.setV vf f).setV vf b)) (hb : b.toNat = m) :
    ∃ t, exec i s = .next t ∧ (t.getV vf).toNat = m := by
  obtain ⟨t, ht, -, -, hres⟩ := result_overwrites_flag hi hb
  exact ⟨t, ht, hres⟩

/-- Settles O42, entry by entry of the table of R137: an operand that is VF reads as the flag just written, except in the
sum, which is taken before. -/
theorem vfOperandOfAddAndSub : Obligations.VfOperandOfAddAndSub := by
  intro s x y hx hy
  have sum_vf_vf : (s.getV vf + s.getV vf).toNat = 2 * (s.getV vf).toNat % 256 := by
    rw [BitVec.toNat_add, Nat.two_mul]
  refine ⟨result_in_vf rfl (BitVec.toNat_add ..), result_and_flag rfl hx (BitVec.toNat_add ..) (toNat_carryFlag ..),
    result_in_vf rfl sum_vf_vf,
    result_in_vf rfl ?_, result_and_flag rfl hx ?_ (toNat_noBorrowFlag ..), result_in_vf rfl ?_,
    result_in_vf rfl ?_, result_and_flag rfl hx ?_ (toNat_noBorrowFlag ..), result_in_vf rfl ?_⟩
  · rw [State.getV_setV_same, s.getV_setV_ne _ hy, toNat_sub_byte, toNat_noBorrowFlag]
  · rw [State.getV_setV_same, s.getV_setV_ne _ hx, toNat_sub_byte, toNat_noBorrowFlag]
  · rw [BitVec.sub_self]
    rfl
  · rw [State.getV_setV_same, s.getV_setV_ne _ hy, toNat_sub_byte, toNat_noBorrowFlag]
  · rw [State.getV_setV_same, s.getV_setV_ne _ hx, toNat_sub_byte, toNat_noBorrowFlag]
  · rw [BitVec.sub_self]
    rfl

/-! ### Shifts -/

/-- Settles O41: y is not read, and with x = F the shifted value is the flag just written. -/
theorem shiftByOne : Obligations.ShiftByOne := by
  intro s x y
  refine ⟨fun hx => ⟨flagged_result rfl hx ?_ (toNat_shrFlag _), flagged_result rfl hx ?_ (toNat_shlFlag ..)⟩, ?_,
    result_overwrites_flag rfl ?_⟩
  · rw [s.getV_setV_ne _ hx, toNat_shr_one]
  · rw [s.getV_setV_ne _ hx, toNat_shl_one]
  · obtain ⟨t, ht, hv, hregs, hres⟩ := result_overwrites_flag (i := .shr vf y) (s := s) (m := 0) rfl (by
      rw [State.getV_setV_same, toNat_shr_one, toNat_shrFlag]
      omega)
    exact ⟨t, ht, hv, hregs, BitVec.eq_of_toNat_eq hres⟩
  · rw [State.getV_setV_same, toNat_shl_one, toNat_shlFlag]
    cases s.shlFlagMode with
    | legacyZero => rfl
    | topBit =>
      have hlt := (s.getV vf).isLt
      show (s.getV vf).toNat / 128 * 2 % 256 = 2 * ((s.getV vf).toNat / 128)
      omega

/-! ### The random byte -/

/-- Settles O43: the byte and the new state word of `random_byte()` (R150) as numbers. -/
theorem randomByteMasked : Obligations.RandomByteMasked := by
  intro s x kk
  refine ⟨_, rfl, ?_, ?_⟩
  · rw [State.getV_setV_same, BitVec.toNat_and, State.randomByte, BitVec.toNat_setWidth]
  · rw [State.setV_rngState, State.randomByte, State.setRng_rngState, toNat_pcgStep]

/-- The two shifts of R151 are a rotation to the right: for a count of 0 both of them leave the word. -/
theorem shiftRight_or_shiftLeft_eq_rotateRight (w : BitVec 32) {r : Nat} (hr : r < 32) :
    w >>> r ||| w <<< ((32 - r) % 32) = w.rotateRight r := by
  rw [BitVec.rotateRight_def, Nat.mod_eq_of_lt hr]
  rcases Nat.eq_zero_or_pos r with rfl | hpos
  · simp
  · rw [Nat.mod_eq_of_lt (by omega)]

/-- Settles O44: the rotation count is the top 5 bits, below 32. -/
theorem outputTransformRotates : Obligations.OutputTransformRotates := by
  intro old
  have hrot : (old >>> 59).toNat = old.toNat / 2 ^ 59 := by
    rw [BitVec.toNat_ushiftRight, Nat.shiftRight_eq_div_pow]
  have hlt : (old >>> 59).toNat < 32 := by omega
  rw [← hrot]
  exact shiftRight_or_shiftLeft_eq_rotateRight _ hlt

end Sys2Proof.Machine
end

section
/-! PROOFS. The index register and the memory transfers at I (R161 to R165): a write of I as a number, the bytes a store
leaves at I, and the registers a load leaves. -/

namespace Sys2Proof.Machine

/-! ### The index register -/

/-- The address of a glyph does not reach 2^16, so that it is exact (R52, R162). -/
theorem toNat_glyphAddr (b : Byte) : (glyphAddr b).toNat = 0x050 + 5 * b.toNat := by
  rw [glyphAddr, Config.fontBase, BitVec.toNat_add, BitVec.toNat_mul, toNat_zextByte, BitVec.toNat_ofNat,
    BitVec.toNat_ofNat]
  omega

/-- Settles O45: each is a write of I, with the wrapped sum or the glyph's address. -/
theorem indexArithmetic : Obligations.IndexArithmetic := by
  refine fun s x => ⟨⟨_, rfl, ?_, rfl⟩, ⟨_, rfl, toNat_glyphAddr _, rfl⟩⟩
  rw [State.setI_i, BitVec.toNat_add, toNat_zextByte]

/-! ### Stores at I -/

/-- An instruction that stores `n` bytes at I, all in memory, leaves `stored j` at I + j and everything else as it was
(R60). -/
theorem stores_at_index {i : Instr} {s : State} {bs : List Byte} {n : Nat} {stored : Nat → Byte}
    (hi : exec i s = .next (s.storeBytes (s.effAddr 0) bs)) (hlen : bs.length = n)
    (hstored : ∀ j, j < n → bs.getD j 0#8 = stored j) (h : s.effAddr 0 + n ≤ 4096) :
    ∃ t, exec i s = .next t ∧ onlyMemory s t ∧ otherBytes (s.effAddr 0) n s t ∧
      ∀ j, j < n → t.mem.read (s.i.toNat + j) = stored j := by
  have hread := s.read_storeBytes hlen hstored h
  refine ⟨_, hi, ?_, fun a ha => ?_, fun j hj => ?_⟩
  · rw [State.storeBytes_ok bs s _ (hlen ▸ h)]
    rfl
  · have hout : ¬(s.i.toNat ≤ a ∧ a < s.i.toNat + n) := fun hin =>
      ha.elim (Nat.not_lt.mpr hin.1) (Nat.not_le.mpr hin.2)
    exact (hread a).trans (if_neg hout)
  · have hin : s.i.toNat ≤ s.i.toNat + j ∧ s.i.toNat + j < s.i.toNat + n := by omega
    rw [hread, State.byteAfterStore, if_pos hin, Nat.add_sub_cancel_left]

/-- Settles O47: the bytes stored are the registers, one by one. -/
theorem registersStored : Obligations.RegistersStored := by
  intro s x h
  obtain ⟨t, ht, hmem, hother, hread⟩ :=
    stores_at_index (i := .ldMiVx x) rfl (length_regsUpTo s x) (fun _ => getD_regsUpTo s x) h
  refine ⟨t, ht, hmem, hother, fun r hr => ?_⟩
  rw [hread r.toNat (Nat.lt_succ_of_le hr), BitVec.ofNat_toNat, BitVec.setWidth_eq]

/-- Settles O46: the bytes stored are the digits, one by one; the hundreds of a byte are below 10. -/
theorem decimalDigitsStored : Obligations.DecimalDigitsStored := by
  intro s x h
  obtain ⟨t, ht, hmem, hother, hread⟩ :=
    stores_at_index (i := .ldBVx x) rfl (length_bcdDigits (s.getV x)) (fun _ => getD_bcdDigits _) h
  have hdigit (j : Nat) (hj : j < 3) :
      (t.mem.read (s.i.toNat + j)).toNat = (s.getV x).toNat / 10 ^ (2 - j) % 10 := by
    rw [hread j hj, BitVec.toNat_ofNat]
    omega
  have hhundreds : (s.getV x).toNat / 100 < 10 := by omega
  refine ⟨t, ht, hmem, hother, ?_, hdigit 1 (by decide), ?_⟩
  · exact (hdigit 0 (by decide)).trans (Nat.mod_eq_of_lt hhundreds)
  · exact (hdigit 2 (by decide)).trans (by rw [Nat.sub_self, Nat.pow_zero, Nat.div_one])

/-! ### Loads at I -/

/-- Settles O48: a load that fits writes registers only, and `State.getV_loadRegs` says which. -/
theorem registersLoaded : Obligations.RegistersLoaded := by
  intro s x h
  refine ⟨_, rfl, (State.loadRegs_frame (x.toNat + 1) s (s.effAddr 0) 0).1 (.inl h), fun r => ?_⟩
  rw [State.getV_loadRegs _ s _ 0 h (by omega)]
  exact if_congr (by omega) rfl rfl

end Sys2Proof.Machine
end

section
/-! PROOFS. The display instructions (spec/44_display.md): what a drawn sprite does to the pixels it covers, once and twice,
and what `00E0` and `Dxyn` leave. -/

namespace Sys2Proof.Machine

/-! ### Clearing -/

/-- Settles O51: the cleared display has no pixel that is 1. -/
theorem clearMakesEveryPixelZero : Obligations.ClearMakesEveryPixelZero :=
  fun _ => ⟨_, rfl, Display.pixel_clear, rfl, rfl, rfl⟩

/-! ### A sprite drawn once, by the pixels it covers -/

section
variable {x0 y0 : Nat} {rows : List Byte} (h : rows.length ≤ 32) (d : Display)
include h

theorem draw_pixel_of_covers {r : Fin 32} {c : Fin 64} (hc : spriteCovers x0 y0 rows r c) :
    (draw x0 y0 rows d).1.pixel r c = !d.pixel r c := by
  rw [draw_pixel x0 y0 rows d h, (spriteCovers_iff x0 y0 rows h r c).mp hc, Bool.xor_true]

theorem draw_pixel_of_not_covers {r : Fin 32} {c : Fin 64} (hc : ¬spriteCovers x0 y0 rows r c) :
    (draw x0 y0 rows d).1.pixel r c = d.pixel r c := by
  have hbit : spriteBitAt x0 y0 rows r c = false :=
    Bool.eq_false_of_not_eq_true (mt (spriteCovers_iff x0 y0 rows h r c).mpr hc)
  rw [draw_pixel x0 y0 rows d h, hbit, Bool.xor_false]

theorem draw_collision_iff_covers :
    (draw x0 y0 rows d).2 = true ↔ ∃ r c, spriteCovers x0 y0 rows r c ∧ d.pixel r c = true := by
  simp only [draw_collision x0 y0 rows d h, spriteCovers_iff x0 y0 rows h, and_comm]

/-! ### A sprite drawn twice -/

/-- XOR with one bit is its own inverse, pixel by pixel (R181). -/
theorem draw_draw_display : (draw x0 y0 rows (draw x0 y0 rows d).1).1 = d :=
  Display.ext_pixel fun r c => by
    rw [draw_pixel _ _ _ _ h, draw_pixel _ _ _ _ h, Bool.xor_assoc, Bool.xor_self, Bool.xor_false]

/-- The second draw finds the pixels under the sprite inverted, so that it collides where the first found a 0 (log 28). -/
theorem draw_draw_collision_iff_covers :
    (draw x0 y0 rows (draw x0 y0 rows d).1).2 = true ↔
      ∃ r c, spriteCovers x0 y0 rows r c ∧ d.pixel r c = false := by
  rw [draw_collision_iff_covers h]
  refine exists_congr fun r => exists_congr fun c => and_congr_right fun hc => ?_
  rw [draw_pixel_of_covers h d hc, Bool.not_eq_true']

end

/-! ### The instruction -/

theorem collisionFlag_eq_one_iff (c : Bool) : collisionFlag c = 1#8 ↔ c = true := by cases c <;> decide

theorem length_spriteAtI_le (s : State) (n : Nibble) : (spriteAtI s n).length ≤ 32 :=
  (length_spriteAtI s n).trans (by decide)

/-- A write of `x` that leaves the value in `x` leaves every register. -/
theorem State.getV_setV_of_kept (s : State) {x z : Nibble} {b : Byte} (h : z = x → (s.setV x b).getV x = s.getV x) :
    (s.setV x b).getV z = s.getV z := by
  by_cases hz : z = x
  · rw [hz, h hz]
  · exact s.getV_setV_ne b hz

/-- Settles O52: what `draw` does to the display and the flag, and one write of each. -/
theorem drawXorsSprite : Obligations.DrawXorsSprite := by
  intro s x y n h covers
  have hlen := length_spriteAtI_le s n
  have hcollision := draw_collision_iff_covers hlen (x0 := (s.getV x).toNat) (y0 := (s.getV y).toNat) s.disp
  refine ⟨_, execDrw_ok s x y n h, fun r c hc => draw_pixel_of_covers hlen s.disp hc,
    fun r c hc => draw_pixel_of_not_covers hlen s.disp hc, rfl, fun hhit => ?_, fun hmiss => ?_,
    fun r hr => State.getV_setV_ne _ _ hr, rfl⟩
  · rw [State.getV_setV_same, hcollision.mpr hhit]
    rfl
  · rw [State.getV_setV_same, Bool.eq_false_of_not_eq_true (mt hcollision.mp hmiss)]
    rfl

/-- Settles O53: the first draw leaves I, memory and the two coordinates, so that the second draws the same sprite at the
same place on the display the first left. -/
theorem drawTwiceRestoresDisplay : Obligations.DrawTwiceRestoresDisplay := by
  intro s t x y n h ht hvf
  have hlen := length_spriteAtI_le s n
  cases (execDrw_ok s x y n h).symm.trans ht
  refine ⟨_, execDrw_ok _ x y n h, ?_⟩
  rw [State.getV_setV_of_kept _ fun e => hvf (.inl e), State.getV_setV_of_kept _ fun e => hvf (.inr e),
    State.getV_setDisp, State.getV_setDisp]
  refine ⟨draw_draw_display hlen s.disp, ?_⟩
  rw [State.getV_setV_same, collisionFlag_eq_one_iff]
  exact draw_draw_collision_iff_covers hlen s.disp

end Sys2Proof.Machine
end

section
/-! PROOFS. Timer access and key input (spec/45_timers_input.md): what `Fx0A` does with and without a latched key, the cycle
that waits in it, the key skips, and the transfers from and to the timers. -/

namespace Sys2Proof.Machine

/-! ### The key wait -/

/-- An empty latch rolls PC back (R203). -/
theorem exec_ldVxK_of_latch_empty {s : State} (x : Nibble) (h : s.latch = 0#16) :
    exec (.ldVxK x) s = .next (s.setPc (s.pc - 2#16)) := by
  simp only [exec, execLdVxK, lowestKey_eq_none.mpr h]

/-- The lowest key of the latch is loaded (R203). -/
theorem exec_ldVxK_of_lowest {s : State} (x : Nibble) {k : Nat} (hk : s.latch.getLsbD k = true)
    (hj : ∀ j, j < k → s.latch.getLsbD j = false) : exec (.ldVxK x) s = .next (s.setV x (BitVec.ofNat 8 k)) := by
  simp only [exec, execLdVxK, lowestKey_eq_some hk hj]

/-- Settles O55: a write of PC without a key, one register write with a key, whose number fits a byte. -/
theorem keyWait : Obligations.KeyWait := by
  refine fun s x => ⟨exec_ldVxK_of_latch_empty x, fun k hk hj => ?_⟩
  have hlt : k < 16 := BitVec.lt_of_getLsbD hk
  refine ⟨_, exec_ldVxK_of_lowest x hk hj, ?_, rfl, rfl, fun hx => s.getV_setV_ne _ hx.symm, rfl⟩
  rw [State.getV_setV_same, BitVec.toNat_ofNat]
  exact Nat.mod_eq_of_lt (by omega)

/-! ### The waiting cycle -/

/-- The rollback of `Fx0A` undoes the advance, so that the dispatch step leaves the state as it was (R203, R239). -/
theorem dispatch_wait {s : State} {w : Word} {x : Nibble} (hf : s.fetch = .ok w) (hd : decode w = .ok (.ldVxK x))
    (hl : s.latch = 0#16) : dispatch s = .next s := by
  rw [dispatch_ok hf hd, exec_ldVxK_of_latch_empty (s := s.advance) x hl, State.advance, State.setPc_pc,
    BitVec.add_sub_cancel]
  rfl

/-- A sample that sees the termination key ends the run after the tick, and no key set is written (R235). -/
theorem State.tickAndSample_terminated (t : State) {inp : CycleInput} (hs : inp.sample = true) (hterm : inp.term = true) :
    t.tickAndSample inp =
      { t with
        dt := if inp.tick then countDown t.dt else t.dt
        st := if inp.tick then countDown t.st else t.st
        status := .halted (.terminated t.pc) } := by
  unfold State.tickAndSample State.inputSample
  rw [if_pos hs, if_pos hterm]
  cases inp.tick <;> rfl

/-- All a running machine's cycle does after the dispatch step, if the termination key ends it: there is no render (R235). -/
theorem State.endCycle_terminated (t : State) {inp : CycleInput} (hr : t.status = .running) (hs : inp.sample = true)
    (hterm : inp.term = true) :
    t.endCycle inp =
      { t with
        dt := if inp.tick then countDown t.dt else t.dt
        st := if inp.tick then countDown t.st else t.st
        status := .halted (.terminated t.pc)
        inputs := t.inputs.tail
        cycle := t.cycle + 1 } := by
  rw [t.endCycle_running inp hr, t.tickAndSample_terminated hs hterm]
  rfl

/-- A timer after a cycle, as a number (R230). -/
theorem toNat_ite_countDown (tick : Bool) (b : Byte) :
    (if tick then countDown b else b).toNat = if tick then b.toNat - 1 else b.toNat := by
  split
  · exact toNat_countDown b
  · rfl

/-- Settles O56: the dispatch step leaves the state as it was, so that the cycle is its end alone, with or without the
termination key. -/
theorem waitingCycleKeepsRunning : Obligations.WaitingCycleKeepsRunning := by
  intro s x hr he hpc hd hl
  refine ⟨_, step_running hr he (dispatch_wait (s.fetch_ok hpc) hd hl), ?_⟩
  by_cases hterm : s.input.sample = true ∧ s.input.term = true
  · obtain ⟨hsample, hkey⟩ := hterm
    rw [s.endCycle_terminated hr hsample hkey]
    exact ⟨rfl, toNat_ite_countDown _ _, toNat_ite_countDown _ _, (if_pos ⟨hsample, hkey⟩).symm, rfl⟩
  · rw [s.endCycle_eq hr hterm]
    exact ⟨rfl, toNat_ite_countDown _ _, toNat_ite_countDown _ _, hr.trans (if_neg hterm).symm, rfl⟩

/-! ### Key skips -/

/-- A byte names a latched key exactly if it is a key number and that key is in the latch (R206). -/
theorem State.latched_iff (s : State) (b : Byte) :
    s.latched b = true ↔ b.toNat < 16 ∧ s.latch.getLsbD b.toNat = true := by
  rw [State.latched, Bool.and_eq_true, decide_eq_true_iff, Nat.lt_succ_iff]

/-- An instruction that is a skip on `c` skips exactly when `p` holds, and writes nothing but PC (R92). -/
theorem skips_only_pc {i : Instr} {s : State} {c : Bool} {p : Prop} [Decidable p]
    (hi : exec i s = .next (s.skipIf c)) (h : c = true ↔ p) :
    ∃ t, exec i s = .next t ∧ onlyPc s t ∧ t.pc = if p then s.pc + 2#16 else s.pc := by
  rw [s.skipIf_eq_setPc h] at hi
  exact ⟨_, hi, onlyPc_setPc s _, rfl⟩

/-- Settles O36: each is a skip on `latched` or its negation. -/
theorem keySkips : Obligations.KeySkips := by
  intro s x
  have hlatched := s.latched_iff (s.getV x)
  have hnot : (!s.latched (s.getV x)) = true ↔
      ¬((s.getV x).toNat < 16 ∧ s.latch.getLsbD (s.getV x).toNat = true) := by
    rw [Bool.not_eq_true', ← Bool.not_eq_true, hlatched]
  refine ⟨skips_only_pc rfl hlatched, ?_⟩
  rw [← ite_not]
  exact skips_only_pc rfl hnot

/-! ### Timer transfers -/

/-- Settles O54: each is one register write. -/
theorem timerTransfers : Obligations.TimerTransfers :=
  fun s x => ⟨⟨_, rfl, s.getV_setV_same x s.dt, fun hx => s.getV_setV_ne s.dt hx.symm, rfl⟩,
    ⟨_, rfl, rfl, rfl, rfl⟩, ⟨_, rfl, rfl, rfl, rfl⟩⟩

end Sys2Proof.Machine
end

section
/-! PROOFS. Errors and the events of a cycle (spec/60_exceptions.md): which instruction ends a run and how, what else
ends it within a cycle, the timer tick, and the input sample. -/

namespace Sys2Proof.Machine

/-! ### How an instruction ends a run -/

/-- An instruction leaves the status or ends the run with one of its fatal errors (R220). -/
theorem exec_status {i : Instr} {s t : State} (h : exec i s = .next t) :
    t.status = s.status ∨ ∃ e, Raises s i e ∧ t.status = .halted e := by
  cases exec_effect h with
  | halt he => exact .inr ⟨_, he, rfl⟩
  | store _ _ hst => exact hst
  | load _ _ hst => exact hst
  | _ => exact .inl rfl

/-- Settles O28: the fatal errors of `Raises` are the three of the statement. -/
theorem instructionErrors : Obligations.InstructionErrors := by
  intro i s t h
  rcases exec_status h with hsame | ⟨e, he, ht⟩
  · exact .inl hsame
  · cases he with
    | overflow nnn hsp => exact .inr (.inl ⟨nnn, rfl, hsp, ht⟩)
    | underflow hsp => exact .inr (.inr (.inl ⟨rfl, hsp, ht⟩))
    | outOfBounds _ hn ha => exact .inr (.inr (.inr ⟨hn, ha, ht⟩))

/-! ### How a run ends within a cycle -/

/-- Settles O9: a dispatch step that ended the run is the whole cycle; otherwise the cycle's end is the record of
`State.endCycle_terminated`. -/
theorem runEndsWithinCycle : Obligations.RunEndsWithinCycle := by
  intro s t hs he hd
  refine ⟨fun r hfatal => ⟨t, step_of_dispatch_halted hs he hd hfatal, hfatal⟩, fun hr hsample hterm => ?_⟩
  have hstep := step_running hs he hd
  rw [t.endCycle_terminated hr hsample hterm] at hstep
  exact ⟨_, hstep, rfl, rfl, rfl, rfl, rfl⟩

/-! ### The timer tick -/

/-- A timer that is not 0 loses 1 (R230). -/
theorem toNat_countDown_add_one {b : Byte} (h : b ≠ 0#8) : (countDown b).toNat + 1 = b.toNat := by
  rw [toNat_countDown]
  bv_omega

/-- A timer at 0 stays there (R230). -/
theorem countDown_of_eq_zero {b : Byte} (h : b = 0#8) : countDown b = 0#8 := if_pos h

/-- Settles O16: the tick counts each timer down. -/
theorem tickLowersTimers : Obligations.TickLowersTimers :=
  fun _ => ⟨toNat_countDown_add_one, countDown_of_eq_zero, toNat_countDown_add_one, countDown_of_eq_zero⟩

/-! ### The input sample -/

/-- A sample without the termination key replaces the latch and the keys of the previous sample (R233). -/
theorem State.inputSample_keys (s : State) (down : KeySet) :
    s.inputSample down false = s.setKeys (down &&& ~~~s.prevDown) down := rfl

/-- A sample with the termination key ends the run and does nothing else (R235). -/
theorem State.inputSample_terminated (s : State) (down : KeySet) :
    s.inputSample down true = s.halt (.terminated s.pc) := rfl

/-- A key is in the difference of two key sets exactly if it is in the first and not in the second (R233). -/
theorem getLsbD_and_not (down prev : KeySet) (k : Nat) :
    (down &&& ~~~prev).getLsbD k = (down.getLsbD k && !prev.getLsbD k) := by
  by_cases hk : k < 16
  · simp [hk]
  · have hdown : down.getLsbD k = false := down.getLsbD_of_ge k (Nat.not_lt.mp hk)
    simp [hdown]

/-- A sample latches the keys that are down and were not down before (R233). -/
theorem State.getLsbD_latch_inputSample (s : State) (down : KeySet) (k : Nat) :
    (s.inputSample down false).latch.getLsbD k = (down.getLsbD k && !s.prevDown.getLsbD k) := by
  rw [s.inputSample_keys]
  exact getLsbD_and_not down s.prevDown k

/-- Settles O17: both outcomes of a sample. -/
theorem sampleLatchesNewKeys : Obligations.SampleLatchesNewKeys := by
  intro s down
  refine ⟨⟨s.getLsbD_latch_inputSample down, rfl⟩, ?_⟩
  rw [s.inputSample_terminated]
  exact ⟨⟨s.pc, rfl⟩, rfl, rfl⟩

/-- Settles O18: the second sample compares with the keys down at the first. -/
theorem heldKeyIsLatchedOnce : Obligations.HeldKeyIsLatchedOnce := by
  intro s d1 d2 k _
  have hprev : (s.inputSample d1 false).prevDown = d1 := rfl
  rw [State.getLsbD_latch_inputSample, hprev, Bool.and_eq_true, Bool.not_eq_true', and_comm]

end Sys2Proof.Machine
end

section
/-! PROOFS. Initialisation (spec/70_reset_and_hazards.md): the invariant after a load that fits (R260, R262), and the default
font as what empty memory reads (R52, R53; log 5). -/

namespace Sys2Proof.Machine

/-! ### The invariant -/

/-- The font is inside memory, and the launch parameters touch nothing else the invariant speaks of (R260). -/
theorem State.Inv.blank (p : LaunchParams) : (State.blank p).Inv where
  memory := Memory.wf_writeAll _ _ _ (by rw [Vector.length_toList]; decide) Memory.wf_reset
  stackPointer := resetMeetsInvariant.stackPointer
  pcBound := resetMeetsInvariant.pcBound
  returns := resetMeetsInvariant.returns
  program := resetMeetsInvariant.program

/-- Settles O21: a ROM that fits the program memory ends at or below address 4096, so that the load keeps what holds
before it. -/
theorem initialiseMeetsInvariant : Obligations.InitialiseMeetsInvariant := by
  intro p rom h
  have hblank := State.Inv.blank p
  have hend : 0x200 + rom.length ≤ Config.memSize := Nat.add_le_add_left h 0x200
  rw [State.initialise_of_fits p h]
  exact ⟨Memory.wf_writeAll rom _ _ hend hblank.memory, hblank.stackPointer, hblank.pcBound, hblank.returns, h⟩

/-! ### The reset state -/

/-- Bytes that empty memory reads anyway are not listed (R50). -/
theorem Memory.writeAll_nil_of_base (bs : List Byte) (a : Nat)
    (h : ∀ j, j < bs.length → bs.getD j 0#8 = Memory.base (a + j)) : Memory.writeAll [] a bs = [] := by
  induction bs generalizing a with
  | nil => rfl
  | cons b bs ih =>
    have hb : b = Memory.base a := h 0 (Nat.succ_pos _)
    have hwrite : Memory.write [] a b = [] := if_pos hb
    rw [Memory.writeAll, hwrite]
    refine ih (a + 1) fun j hj => ?_
    rw [Nat.add_assoc, Nat.add_comm 1 j]
    exact h (j + 1) (Nat.succ_lt_succ hj)

/-- Empty memory reads the default font from its base address on (R52, R53). -/
theorem Memory.base_fontBase_add (j : Nat) : Memory.base (Config.fontBase + j) = defaultFontBytes.getD j 0#8 := by
  rw [Memory.base, if_pos (Nat.le_add_right _ _), Nat.add_sub_cancel_left]

/-- With the defaults the state before the load is the reset state: the font written is the one memory reads (log 5). -/
theorem State.blank_defaultLaunch : State.blank defaultLaunch = State.reset := by
  have hfont : Memory.writeAll [] Config.fontBase defaultLaunch.font.toList = [] :=
    Memory.writeAll_nil_of_base _ _ fun j _ => (Memory.base_fontBase_add j).symm
  rw [State.blank, hfont]
  rfl

/-- Settles O59: a ROM of 0 bytes fits, and its load writes nothing. -/
theorem resetIsEmptyInitialisation : Obligations.ResetIsEmptyInitialisation := by
  unfold Obligations.ResetIsEmptyInitialisation
  rw [State.initialise_of_fits defaultLaunch (rom := []) (Nat.zero_le 3584), State.blank_defaultLaunch]
  rfl

end Sys2Proof.Machine
end

section
/-! PROOFS. Words written out from the encodings (spec/95_test_vectors.md section 2.9), by the round trip in both directions and
the classes of invalid words. -/

namespace Sys2Proof

/-- A word decodes to the well-formed instruction it encodes, and to no other (R72, R74, R76). -/
theorem decode_eq_ok_iff {w : Word} {i : Instr} : decode w = .ok i ↔ i.wf = true ∧ encode i = w := by
  constructor
  · exact encodeOfDecode w i
  · rintro ⟨hwf, rfl⟩
    exact decodeOfEncode i hwf

/-- Settles O1: each of the nine words is the encoding of its well-formed instruction, and 0x8128 is in the second class of
invalid words, family 8 with the unused last digit 8. -/
theorem sampleWordsDecode : Obligations.SampleWordsDecode := by
  have hinvalid : decode 0x8128#16 = .error (.invalidOpcode 0x8128#16) :=
    (invalidWordsAreTheFiveClasses 0x8128#16).mpr (.inr (.inl (by decide)))
  simp only [Obligations.SampleWordsDecode, decode_eq_ok_iff, hinvalid]
  decide

end Sys2Proof
end
